-- ==== Sys2Proof/Word.lean ====
section
/-! DEFINITION. The two machine types of the core: the 32-bit word of R7 and R9 (`WORD_BITS = 32`, every word
unsigned) and the byte of the serialised streams (R41). Word addition and exclusive or are the wrapping `+` and
`^^^` of `BitVec` (R10). -/

namespace Sys2Proof

/-- A word: an unsigned 32-bit integer, bit 0 the least significant (R9). -/
abbrev Word := BitVec 32

/-- A byte of a keystream block or of a chunk (R41, R43), and an 8-bit field of a command or response word (R61, R65). -/
abbrev Byte := BitVec 8

/-- A 16-word state (R11, R100): word `i` stands at row `i / 4`, column `i % 4` of the 4×4 matrix. -/
abbrev Block := Vector Word 16

end Sys2Proof
end

