-- ==== Sys2Proof/Config.lean ====
section
/-! DEFINITION. The implementation parameters of R7, the value of the parameter `SIGMA` the model starts from (R8), and the
free values: what the session registers hold after reset, which the spec leaves unspecified (R21, R22, R23, R250). -/

namespace Sys2Proof.Config

/-- `KEY_WORDS` (R7): a 256-bit key. -/
abbrev keyWords : Nat := 8

/-- `NONCE_WORDS` (R7): a 96-bit nonce. -/
abbrev nonceWords : Nat := 3

/-- `ROUNDS` (R7). -/
abbrev rounds : Nat := 20

/-- `CHUNK_BYTES` (R7), which is also `BLOCK_BYTES`. -/
abbrev chunkBytes : Nat := 64

/-- `CTR_INIT` (R7): the counter at the start of a session. -/
abbrev ctrInit : Word := 0

/-- The four rotation amounts `QR_ROTATIONS` of R7, in the order the quarter round uses them. -/
abbrev rotation1 : Nat := 16
/-- The second entry of `QR_ROTATIONS` (R7). -/
abbrev rotation2 : Nat := 12
/-- The third entry of `QR_ROTATIONS` (R7). -/
abbrev rotation3 : Nat := 8
/-- The fourth entry of `QR_ROTATIONS` (R7). -/
abbrev rotation4 : Nat := 7

/-- The DEFAULT of the parameter `SIGMA` (R8): the words of the ASCII string `expand 32-byte k`.
PRESUMED: the spec gives this default from general knowledge (its G1); log entry 1. The machine's own constants stand
in `State.sigma`, so every statement about every state holds for every value of the parameter. -/
def sigmaDefault : Vector Word 4 := #v[0x61707865, 0x3320646e, 0x79622d32, 0x6b206574]

/-- FREE VALUE: what `KEY` holds after reset, unspecified (R21, R250). DESIGN CHOICE, log entry 2. -/
opaque resetKey : Vector Word 8

/-- FREE VALUE: what `NONCE` holds after reset, unspecified (R22, R250). DESIGN CHOICE, log entry 2. -/
opaque resetNonce : Vector Word 3

/-- FREE VALUE: what `CTR` holds after reset, unspecified (R23, R250). DESIGN CHOICE, log entry 2. -/
opaque resetCtr : Word

end Sys2Proof.Config
end

