-- ==== Sys2Proof/Machine/State.lean ====
section
/-! DEFINITION. The state of the core: the registers R20 lists, and the two channels of the command port (R60) as plain data:
the host's acts at the port, in order, and the response words the core has given. Its faults and refusals. -/

namespace Sys2Proof.Machine

open Sys2Proof

/-- One act of the host at the port (R261). The list of them in `State.input` is in the order of the host's acts. -/
inductive PortEvent where
  /-- A word on the command input channel: a command word or a payload word (R60). -/
  | word (w : Word)
  /-- The host accepts the next word of the response, if one is there. -/
  | accept
  /-- The host accepts every word of the response that is there. -/
  | acceptAll
  /-- An assertion of reset, which takes effect between two words (R250, R251). -/
  | reset
deriving DecidableEq, Repr

/-- The state of the core between commands (R20), with its port. -/
structure State where
  /-- `KEY[0..7]` (R21). -/
  key : Vector Word 8
  /-- `NONCE[0..2]` (R22). -/
  nonce : Vector Word 3
  /-- `CTR`, the block counter (R23). -/
  ctr : Word
  /-- `SIGMA[0..3]`, hardwired: the model's parameter (R8, R24). -/
  sigma : Vector Word 4
  /-- `STATUS.CFG`: a session is configured (R25). -/
  cfg : Bool
  /-- `STATUS.FLT`: the fault latch (R26). -/
  flt : Bool
  /-- `STATUS.FCODE`: the status code of the error that set the latch (R27). -/
  fcode : Byte
  /-- The host's acts to come, in order (R261). -/
  input : List PortEvent
  /-- The words of the latest response that the host has not accepted yet, in order (R60, R261). -/
  response : List Word
  /-- The response words that the host has accepted, in order (R262). -/
  emitted : List Word
deriving DecidableEq, Repr

/-- The state of R250 under the constants `sigma`. `KEY`, `NONCE` and `CTR` hold unspecified values (log entry 2). -/
def State.resetWith (sigma : Vector Word 4) : State where
  key := Config.resetKey
  nonce := Config.resetNonce
  ctr := Config.resetCtr
  sigma := sigma
  cfg := false
  flt := false
  fcode := 0x00
  input := []
  response := []
  emitted := []

/-- The machine right after reset (R250), with the default value of the parameter `SIGMA` (R8; log entry 1). -/
def State.reset : State := State.resetWith Config.sigmaDefault

/-- The ways the machine stops. No command's meaning raises one: every error of R220 is an ordinary next state. -/
inductive Fault where
  /-- Raised by `step` when the host's acts end inside a command: the core waits for payload words that do not come
  (R261, R262: "stuck, not finished"). Safe: the model stops where the core waits. -/
  | awaitingPayload
  /-- Raised by `step` when the host's acts hold neither an acceptance nor a reset while response words are left: the core waits
  for the host to accept them and takes no command (R261). Safe: the model stops where the core waits. -/
  | awaitingAcceptance
deriving DecidableEq, Repr

/-- The reasons the model has no meaning for an instruction. -/
inductive Refusal where
  /-- Raised by `exec` for an instruction that has no meaning yet. No arm of `exec` raises it now. Safe: the model stops. -/
  | notModelled (mnemonic : String)
deriving DecidableEq, Repr

end Sys2Proof.Machine
end

