-- ==== Sys2Proof/Machine/Flags.lean ====
section
/-! DEFINITION. The status fields and the codes: the errors and their codes (R66, R220), the packed `STATUS` word (R28) and the
response word (R65). No operation sets an arithmetic flag (R30). -/

namespace Sys2Proof.Machine

open Sys2Proof

/-- The three errors that a command raises, each of which latches the core into the faulted state (R226). -/
inductive Err where
  | configError
  | illegalCommand
  | notConfigured
deriving DecidableEq, Repr

/-- The status of a response (R66): the command completed, it raised an error, or the core is faulted and refused it. -/
inductive Status where
  | ok
  | error (e : Err)
  | faulted
deriving DecidableEq, Repr

/-- The status code of an error, which `raise` also writes into `STATUS.FCODE` (R66, R226). -/
def Err.code : Err → Byte
  | .configError => 0x01
  | .illegalCommand => 0x02
  | .notConfigured => 0x03

/-- The status codes of R66. Codes 0x05 to 0xFF are never emitted. -/
def Status.code : Status → Byte
  | .ok => 0x00
  | .error e => e.code
  | .faulted => 0x04

/-- The `CAUSE` field (R65): `STATUS.FCODE` in a `FAULTED` response, 0x00 in every other. -/
def causeField (st : Status) (fcode : Byte) : Byte :=
  match st with
  | .faulted => fcode
  | .ok => 0x00
  | .error _ => 0x00

/-- The response word `{8'h00, cause, NOUT, status}` (R65). -/
def responseWord (cause nout status : Byte) : Word := 0#8 ++ cause ++ nout ++ status

/-- One bit of the packed `STATUS` word. -/
def bit (b : Bool) : BitVec 1 := if b then 1#1 else 0#1

/-- The packed `STATUS` word `{16'b0, FCODE, 6'b0, FLT, CFG}` (R28). No command reads or writes it as a whole. -/
def State.statusWord (s : State) : Word := 0#16 ++ s.fcode ++ 0#6 ++ bit s.flt ++ bit s.cfg

end Sys2Proof.Machine
end

