-- ==== Sys2Proof/Machine/Operands.lean ====
section
/-! DEFINITION. The operand forms: the shape check on a key or nonce of any word count (R102), the bytes of a word (R42), the
packing of bytes into port words (R43), and the zero-padding of a short chunk (R190). -/

namespace Sys2Proof.Machine

open Sys2Proof

/-- A list of exactly `n` words as a vector, and `none` for any other count: neither cut nor padded (R102). -/
def shaped (n : Nat) (ws : List Word) : Option (Vector Word n) :=
  if h : ws.length = n then some ⟨ws.toArray, by simp [h]⟩ else none

/-- `le32_bytes(w)`: the four bytes of a word, the least significant first (R42). -/
def le32Bytes (w : Word) : List Byte :=
  [w.extractLsb' 0 8, w.extractLsb' 8 8, w.extractLsb' 16 8, w.extractLsb' 24 8]

/-- `le32_word(b0, b1, b2, b3)` (R42). -/
def le32Word (b0 b1 b2 b3 : Byte) : Word := b3 ++ b2 ++ b1 ++ b0

/-- The bytes that a list of packed port words carries (R43). -/
def unpackWords (ws : List Word) : List Byte := ws.flatMap le32Bytes

/-- `serialize(ks)`: the 64 bytes of 16 words (R42, R162). -/
def serialize (ks : Block) : List Byte := unpackWords ks.toList

/-- A byte string packed four bytes to a port word, byte `j` in word `j div 4` at bits `8(j mod 4)+7 : 8(j mod 4)` (R43).
The bytes of the last word past the string's end carry no data (R45); this host leaves them zero
(DESIGN CHOICE, log entry 8). -/
def packBytes : List Byte → List Word
  | [] => []
  | [b0] => [le32Word b0 0 0 0]
  | [b0, b1] => [le32Word b0 b1 0 0]
  | [b0, b1, b2] => [le32Word b0 b1 b2 0]
  | b0 :: b1 :: b2 :: b3 :: rest => le32Word b0 b1 b2 b3 :: packBytes rest

/-- `pad64` of R190 on bytes: right-padded with zero bytes to 64. -/
def padBytes64 (c : List Byte) : List Byte := c ++ List.replicate (64 - c.length) 0

/-- Word `i` of the padded chunk (R190): with `nb = L - 4i` data bytes, the word itself, its low `nb` bytes, or zero. -/
def padWord (len i : Nat) (w : Word) : Word :=
  let nb := len - 4 * i
  if 4 ≤ nb then w
  else if 0 < nb then w &&& BitVec.ofNat 32 (2 ^ (8 * nb) - 1)
  else 0

/-- The padded chunk as 16 words (R190): `len` data bytes in the packed words `ws`, zeros after them. -/
def padChunk (len : Nat) (ws : List Word) : Block := Vector.ofFn fun i => padWord len i.val (ws.getD i.val 0)

end Sys2Proof.Machine
end

