-- ==== Sys2Proof/Machine/Ops.lean ====
section
/-! DEFINITION. The shared operations on the machine: emitting a response, the error path, the refusal of a faulted core, the
session check, the counter, the host's acceptance of response words, and reset. -/

namespace Sys2Proof.Machine

open Sys2Proof

/-- `respond(st, out)` (R12, R65): one response word, then the words of `out`, on the output channel for the host to accept. The
channel is empty whenever the core takes a command (R60, R261). -/
def respond (st : Status) (out : List Word) (s : State) : State :=
  { s with
    response :=
      s.response ++ responseWord (causeField st s.fcode) (BitVec.ofNat 8 out.length) st.code :: out }

/-- `raise E` (R226): the one way into the faulted state. It latches `STATUS.FLT`, records the code, responds with it and
writes nothing else. -/
def raise (e : Err) (s : State) : State :=
  respond (.error e) [] { s with flt := true, fcode := e.code }

/-- The `FAULTED` response of R224, which changes no register. -/
def refuseFaulted (s : State) : State := respond .faulted [] s

/-- Check 1 of R225, before every other: a faulted core refuses the command. -/
def unlessFaulted (s : State) (body : State) : State := if s.flt then refuseFaulted s else body

/-- The session registers together (R160). -/
structure Session where
  key : Vector Word 8
  nonce : Vector Word 3
  ctr : Word
deriving DecidableEq, Repr

/-- What `KEY`, `NONCE` and `CTR` hold, and `none` while they hold no value: before the first successful `INIT` after a reset
(R21 to R23, R25, R34, R250). The only operation that reads those registers. -/
def State.session (s : State) : Option Session := if s.cfg then some ⟨s.key, s.nonce, s.ctr⟩ else none

/-- Check 4 of R225: without a session the command raises `NOT_CONFIGURED` (R223). -/
def requireSession (s : State) (body : Session → State) : State :=
  match s.session with
  | some x => body x
  | none => raise .notConfigured s

/-- The register writes of a successful `INIT` (R165), all in one step. -/
def startSession (key : Vector Word 8) (nonce : Vector Word 3) (s : State) : State :=
  { s with key := key, nonce := nonce, ctr := Config.ctrInit, cfg := true }

/-- `CTR <- (CTR + 1) mod 2^32` (R23, R167, R169). -/
def advanceCounter (s : State) : State := { s with ctr := s.ctr + 1 }

/-- The answer to an illegal command word: `ILLEGAL_COMMAND` (R222), unless the core is faulted (R225). -/
def illegalCommand (s : State) : State := unlessFaulted s (raise .illegalCommand s)

/-- The host accepts the next `n` words of the response, or those that are left where fewer are (R261). -/
def acceptWords (n : Nat) (s : State) : State :=
  { s with emitted := s.emitted ++ s.response.take n, response := s.response.drop n }

/-- The host accepts the whole of the response (R261). -/
def acceptResponse (s : State) : State := acceptWords s.response.length s

/-- An assertion of reset (R250). The response words that the host has not accepted are not emitted (R251). The constants keep
their value (R24), and so does what the host goes on to do. -/
def assertReset (s : State) : State :=
  { State.resetWith s.sigma with input := s.input, emitted := s.emitted }

end Sys2Proof.Machine
end

