-- ==== Sys2Proof/Syntax.lean ====
section
/-! DEFINITION. The eight commands of `spec/opcode_table.json` (R67), each with its operands: the fields `A` and `B` of the
command word (R62) and the payload words (R63). One value of `Instr` is one whole command, the pair of R60. -/

namespace Sys2Proof

/-- The operand `P` of `ROUND` (R62): 0 is the column round, 1 the diagonal round. -/
inductive RoundPattern where
  | column
  | diagonal
deriving DecidableEq, Repr

/-- A legal command with its payload. The word counts `K` and `N` of `BUILD` and `INIT` are the lengths of the lists. -/
inductive Instr where
  /-- `BUILD` (R106): `K` key words, the counter word, `N` nonce words. -/
  | build (key : List Word) (ctr : Word) (nonce : List Word)
  /-- `QROUND` (R126): the four words. -/
  | qround (a b c d : Word)
  /-- `ROUND` (R127): the pattern and the 16-word state. -/
  | round (pattern : RoundPattern) (x : Block)
  /-- `BLOCKFN` (R145): the 16-word state. -/
  | blockfn (x : Block)
  /-- `INIT` (R165): `K` key words, `N` nonce words. -/
  | init (key : List Word) (nonce : List Word)
  /-- `KS_CURRENT` (R166). -/
  | ksCurrent
  /-- `KS_ADVANCE` (R167). -/
  | ksAdvance
  /-- `XOR_CHUNK` (R192): the chunk length `L` in bytes and the `ceil(L/4)` packed chunk words. -/
  | xorChunk (len : Nat) (chunk : List Word)
deriving DecidableEq, Repr

end Sys2Proof
end

