-- ==== Sys2Proof/Machine/QuarterRound.lean ====
section
/-! DEFINITION. The quarter round unit (spec/41_quarter_round.md): the quarter round, the column and the diagonal round, and the
commands `QROUND` and `ROUND`. -/

namespace Sys2Proof.Machine

open Sys2Proof

/-- `rotl(x, k)` for `0 < k < 32`, as R10 writes it. -/
def rotl (x : Word) (k : Nat) : Word := (x <<< k) ||| (x >>> (32 - k))

/-- `QR(a, b, c, d)` (R120). -/
def quarterRound (a b c d : Word) : Word × Word × Word × Word :=
  let a := a + b; let d := d ^^^ a; let d := rotl d Config.rotation1
  let c := c + d; let b := b ^^^ c; let b := rotl b Config.rotation2
  let a := a + b; let d := d ^^^ a; let d := rotl d Config.rotation3
  let c := c + d; let b := b ^^^ c; let b := rotl b Config.rotation4
  (a, b, c, d)

/-- `QR_at(X, (ia, ib, ic, id))` (R122): the four results go back to the four indices. -/
def qrAt (x : Block) (ia ib ic id : Fin 16) : Block :=
  let q := quarterRound x[ia] x[ib] x[ic] x[id]
  (((x.set ia q.1).set ib q.2.1).set ic q.2.2.1).set id q.2.2.2

/-- `column_round` (R123). -/
def columnRound (x : Block) : Block :=
  let x := qrAt x 0 4 8 12
  let x := qrAt x 1 5 9 13
  let x := qrAt x 2 6 10 14
  qrAt x 3 7 11 15

/-- `diagonal_round` (R124). -/
def diagonalRound (x : Block) : Block :=
  let x := qrAt x 0 5 10 15
  let x := qrAt x 1 6 11 12
  let x := qrAt x 2 7 8 13
  qrAt x 3 4 9 14

/-- The round that a `ROUND` command selects (R62, R127). -/
def roundOf (p : RoundPattern) (x : Block) : Block :=
  match p with
  | .column => columnRound x
  | .diagonal => diagonalRound x

/-- `QROUND` (R126). -/
def execQround (a b c d : Word) (s : State) : Host.Outcome State Fault Refusal :=
  let q := quarterRound a b c d
  .next (unlessFaulted s (respond .ok [q.1, q.2.1, q.2.2.1, q.2.2.2] s))

/-- `ROUND` (R127). -/
def execRound (p : RoundPattern) (x : Block) (s : State) : Host.Outcome State Fault Refusal :=
  .next (unlessFaulted s (respond .ok (roundOf p x).toList s))

end Sys2Proof.Machine
end

