-- ==== Sys2Proof/Machine/BlockFunction.lean ====
section
/-! DEFINITION. The block function unit (spec/42_block_function.md): the 20 rounds without feed-forward, and `BLOCKFN`. -/

namespace Sys2Proof.Machine

open Sys2Proof

/-- Round `r`, numbered from 1: an odd round is a column round, an even one a diagonal round (R140). -/
def roundNumber (r : Nat) (x : Block) : Block := if r % 2 = 1 then columnRound x else diagonalRound x

/-- Rounds 1 to `n` in order, each on the result of the one before it (R143). -/
def firstRounds : Nat → Block → Block
  | 0, x => x
  | n + 1, x => roundNumber (n + 1) (firstRounds n x)

/-- `run(S)` (R140). -/
def run (x : Block) : Block := firstRounds Config.rounds x

/-- `BLOCKFN` (R145). -/
def execBlockfn (x : Block) (s : State) : Host.Outcome State Fault Refusal :=
  .next (unlessFaulted s (respond .ok (run x).toList s))

end Sys2Proof.Machine
end

