-- ==== Sys2Proof/Machine/StateBuilder.lean ====
section
/-! DEFINITION. The state builder unit (spec/40_state_builder.md): the function `build` and the command `BUILD`. -/

namespace Sys2Proof.Machine

open Sys2Proof

/-- The 16-word state of R101 from operands of the right shape. -/
def layout (sigma : Vector Word 4) (key : Vector Word 8) (ctr : Word) (nonce : Vector Word 3) : Block :=
  #v[sigma[0], sigma[1], sigma[2], sigma[3],
     key[0],   key[1],   key[2],   key[3],
     key[4],   key[5],   key[6],   key[7],
     ctr,      nonce[0], nonce[1], nonce[2]]

/-- `build(key, ctr, nonce)` (R100): a state, or `none` for the `ConfigurationError` of R102. The constants are not an
operand of any command (R103). -/
def build (sigma : Vector Word 4) (key : List Word) (ctr : Word) (nonce : List Word) : Option Block :=
  match shaped Config.keyWords key, shaped Config.nonceWords nonce with
  | some k, some n => some (layout sigma k ctr n)
  | _, _ => none

/-- `BUILD` (R106). -/
def execBuild (key : List Word) (ctr : Word) (nonce : List Word) (s : State) : Host.Outcome State Fault Refusal :=
  .next (unlessFaulted s
    (match build s.sigma key ctr nonce with
    | some S => respond .ok S.toList s
    | none => raise .configError s))

end Sys2Proof.Machine
end

