-- ==== Sys2Proof/Machine/KeystreamGenerator.lean ====
section
/-! DEFINITION. The keystream generator unit (spec/43_keystream_generator.md): feed-forward and the keystream block, and the
commands `INIT`, `KS_CURRENT` and `KS_ADVANCE`. -/

namespace Sys2Proof.Machine

open Sys2Proof

/-- `feedforward(S)` (R161): the block function's output plus its input, word by word. -/
def feedforward (x : Block) : Block :=
  let b := run x
  Vector.ofFn fun i => b[i] + x[i]

/-- `ks_words(key, c, nonce)` (R163), under the constants `sigma`. -/
def ksWords (sigma : Vector Word 4) (x : Session) : Block := feedforward (layout sigma x.key x.ctr x.nonce)

/-- `ks_bytes(key, c, nonce)` (R163). -/
def ksBytes (sigma : Vector Word 4) (x : Session) : List Byte := serialize (ksWords sigma x)

/-- `INIT` (R165). -/
def execInit (key nonce : List Word) (s : State) : Host.Outcome State Fault Refusal :=
  .next (unlessFaulted s
    (match shaped Config.keyWords key, shaped Config.nonceWords nonce with
    | some k, some n => respond .ok [] (startSession k n s)
    | _, _ => raise .configError s))

/-- `KS_CURRENT` (R166): the block of the current counter, derived afresh (R164). -/
def execKsCurrent (s : State) : Host.Outcome State Fault Refusal :=
  .next (unlessFaulted s (requireSession s fun x => respond .ok (ksWords s.sigma x).toList s))

/-- `KS_ADVANCE` (R167). -/
def execKsAdvance (s : State) : Host.Outcome State Fault Refusal :=
  .next (unlessFaulted s (requireSession s fun _ => respond .ok [] (advanceCounter s)))

end Sys2Proof.Machine
end

