-- ==== Sys2Proof/Machine/StreamXor.lean ====
section
/-! DEFINITION. The stream XOR cipher unit (spec/44_stream_xor_cipher.md): the exclusive or of a padded chunk with a keystream
block, and the command `XOR_CHUNK`. -/

namespace Sys2Proof.Machine

open Sys2Proof

/-- `o[i] = pw[i] ⊕ ks[i]` (R191). -/
def xorBlocks (pw ks : Block) : Block := Vector.ofFn fun i => pw[i] ^^^ ks[i]

/-- `XOR_CHUNK` (R192). The keystream uses the counter from before the increment. -/
def execXorChunk (len : Nat) (chunk : List Word) (s : State) : Host.Outcome State Fault Refusal :=
  .next (unlessFaulted s (requireSession s fun x =>
    respond .ok (xorBlocks (padChunk len chunk) (ksWords s.sigma x)).toList (advanceCounter s)))

end Sys2Proof.Machine
end

