-- ==== Sys2Proof/Machine/Dispatch.lean ====
section
/-! DEFINITION. The meaning of every command of the opcode table (R67): one arm per constructor of `Instr`. -/

namespace Sys2Proof.Machine

open Sys2Proof

def exec (i : Instr) (s : State) : Host.Outcome State Fault Refusal :=
  match i with
  | .build key ctr nonce => Sys2Proof.Machine.execBuild key ctr nonce s
  | .qround a b c d => Sys2Proof.Machine.execQround a b c d s
  | .round p x => Sys2Proof.Machine.execRound p x s
  | .blockfn x => Sys2Proof.Machine.execBlockfn x s
  | .init key nonce => Sys2Proof.Machine.execInit key nonce s
  | .ksCurrent => Sys2Proof.Machine.execKsCurrent s
  | .ksAdvance => Sys2Proof.Machine.execKsAdvance s
  | .xorChunk len chunk => Sys2Proof.Machine.execXorChunk len chunk s

end Sys2Proof.Machine
end

