-- ==== Sys2Proof/WellFormed.lean ====
section
/-! DEFINITION. Which values of `Instr` are commands a host can send: the counts fit the 8-bit fields (R62), the chunk length
is legal (R64), and the chunk has as many payload words as its length asks for (R63). -/

namespace Sys2Proof

/-- The operands fit the encoding of R61 to R64. A word count other than 8 or 3 is well formed: it is a
`CONFIG_ERROR` at execution, not an illegal encoding (R62). -/
def Instr.wellFormed : Instr → Bool
  | .build key _ nonce => key.length ≤ 255 && nonce.length ≤ 255
  | .qround _ _ _ _ => true
  | .round _ _ => true
  | .blockfn _ => true
  | .init key nonce => key.length ≤ 255 && nonce.length ≤ 255
  | .ksCurrent => true
  | .ksAdvance => true
  | .xorChunk len chunk => 1 ≤ len && len ≤ 64 && chunk.length == (len + 3) / 4

end Sys2Proof
end

