-- ==== Sys2Proof/Decode.lean ====
section
/-! DEFINITION. From port words to commands and back: the fields of a command word (R61), which command words are legal (R64),
how many payload words follow (R63), the decoder, total on any list of words and rejecting by name, and the encoder. -/

namespace Sys2Proof

/-! The fields of the `CMD` format (R61) -/

/-- `OP`, bits 7:0 (R61). -/
def opField (cw : Word) : Byte := cw.extractLsb' 0 8

/-- `A`, bits 15:8 (R61). -/
def aField (cw : Word) : Byte := cw.extractLsb' 8 8

/-- `B`, bits 23:16 (R61). -/
def bField (cw : Word) : Byte := cw.extractLsb' 16 8

/-- `RSV`, bits 31:24 (R61), which must be zero. -/
def rsvField (cw : Word) : Byte := cw.extractLsb' 24 8

/-- The word `{8'h00, B, A, OP}` (R69). -/
def cmdWord (b a op : Byte) : Word := 0#8 ++ b ++ a ++ op

/-! Legality and payload length -/

/-- Why a command word is not legal (the illegal cases that R64 lists). The core reports them all alike (R222). -/
inductive IllegalReason where
  /-- `RSV ≠ 0`. -/
  | reservedNonzero
  /-- `OP = 0x00` or `OP` from 0x09 to 0xFF. -/
  | unknownOpcode
  /-- A nonzero `A` or `B` where R62 asks for 0. -/
  | operandFieldNonzero
  /-- `ROUND` with `P ≥ 2`. -/
  | roundPattern
  /-- `XOR_CHUNK` with `L = 0` or `L > 64`. -/
  | chunkLength
deriving DecidableEq, Repr

/-- The first reason for which the decoder rejects a command word, and `none` for a legal one. -/
def whyIllegal (cw : Word) : Option IllegalReason :=
  if rsvField cw ≠ 0#8 then some .reservedNonzero
  else match (opField cw).toNat with
    | 1 => none
    | 2 => if aField cw ≠ 0#8 ∨ bField cw ≠ 0#8 then some .operandFieldNonzero else none
    | 3 => if bField cw ≠ 0#8 then some .operandFieldNonzero else if 2 ≤ (aField cw).toNat then some .roundPattern else none
    | 4 => if aField cw ≠ 0#8 ∨ bField cw ≠ 0#8 then some .operandFieldNonzero else none
    | 5 => none
    | 6 => if aField cw ≠ 0#8 ∨ bField cw ≠ 0#8 then some .operandFieldNonzero else none
    | 7 => if aField cw ≠ 0#8 ∨ bField cw ≠ 0#8 then some .operandFieldNonzero else none
    | 8 => if bField cw ≠ 0#8 then some .operandFieldNonzero
        else if (aField cw).toNat = 0 ∨ 64 < (aField cw).toNat then some .chunkLength else none
    | _ => some .unknownOpcode

/-- `legal(cw)`, as R64 writes it. -/
def legal (cw : Word) : Bool :=
  cw.extractLsb' 24 8 == 0#8 &&
    match (opField cw).toNat with
    | 0x01 => true
    | 0x02 => cw.extractLsb' 8 16 == 0#16
    | 0x03 => cw.extractLsb' 16 8 == 0#8 && (aField cw == 0#8 || aField cw == 1#8)
    | 0x04 => cw.extractLsb' 8 16 == 0#16
    | 0x05 => true
    | 0x06 => cw.extractLsb' 8 16 == 0#16
    | 0x07 => cw.extractLsb' 8 16 == 0#16
    | 0x08 => cw.extractLsb' 16 8 == 0#8 && decide (1 ≤ (aField cw).toNat ∧ (aField cw).toNat ≤ 64)
    | _ => false

/-- `pl(cw)`: how many payload words follow a command word, a function of the word alone, as R63 writes it. -/
def payloadLength (cw : Word) : Nat :=
  if !legal cw then 0
  else match (opField cw).toNat with
    | 0x01 => (aField cw).toNat + 1 + (bField cw).toNat
    | 0x02 => 4
    | 0x03 => 16
    | 0x04 => 16
    | 0x05 => (aField cw).toNat + (bField cw).toNat
    | 0x06 => 0
    | 0x07 => 0
    | 0x08 => ((aField cw).toNat + 3) / 4
    | _ => 0

/-! Taking payload words: `In(n)` of R12 and R63 -/

/-- The next word of the payload and the words after it. -/
def takeWord : List Word → Option (Word × List Word)
  | [] => none
  | w :: rest => some (w, rest)

/-- `In(n)` as a list, and the words after it; `none` when fewer than `n` words have arrived. -/
def takeWords (n : Nat) (ws : List Word) : Option (List Word × List Word) :=
  if n ≤ ws.length then some (ws.take n, ws.drop n) else none

/-- `In(n)` as a vector of a fixed length. -/
def takeVec (n : Nat) (ws : List Word) : Option (Vector Word n × List Word) :=
  if h : n ≤ ws.length then some (⟨(ws.take n).toArray, by simp [h]⟩, ws.drop n) else none

/-! The decoder -/

/-- What the decoder reads from a list of port words. -/
inductive Decoded where
  /-- No word has arrived. -/
  | noWord
  /-- A whole command, and the words after it. -/
  | command (i : Instr) (rest : List Word)
  /-- An illegal command word, which takes no payload (R222), and the words after it. -/
  | illegal (reason : IllegalReason) (rest : List Word)
  /-- A legal command word whose payload has not all arrived. -/
  | awaitingPayload
deriving DecidableEq, Repr

/-- The operands of a legal command word, taken from the words after it in the order of each command's
pseudocode (R106, R126, R127, R145, R165, R166, R167, R192). -/
def operands (cw : Word) (ws : List Word) : Option (Instr × List Word) :=
  match (opField cw).toNat with
  | 1 =>
    (takeWords (aField cw).toNat ws).bind fun key => (takeWord key.2).bind fun ctr =>
      (takeWords (bField cw).toNat ctr.2).map fun nonce => (.build key.1 ctr.1 nonce.1, nonce.2)
  | 2 =>
    (takeWord ws).bind fun a => (takeWord a.2).bind fun b => (takeWord b.2).bind fun c =>
      (takeWord c.2).map fun d => (.qround a.1 b.1 c.1 d.1, d.2)
  | 3 =>
    (takeVec 16 ws).map fun x => (.round (if aField cw = 0#8 then .column else .diagonal) x.1, x.2)
  | 4 => (takeVec 16 ws).map fun x => (.blockfn x.1, x.2)
  | 5 =>
    (takeWords (aField cw).toNat ws).bind fun key =>
      (takeWords (bField cw).toNat key.2).map fun nonce => (.init key.1 nonce.1, nonce.2)
  | 6 => some (.ksCurrent, ws)
  | 7 => some (.ksAdvance, ws)
  | 8 =>
    (takeWords (((aField cw).toNat + 3) / 4) ws).map fun chunk => (.xorChunk (aField cw).toNat chunk.1, chunk.2)
  | _ => none

/-- The decoder, total on any list of port words (R60, R64): a whole command, an illegal word rejected by name, or a
command that is still arriving. -/
def decode : List Word → Decoded
  | [] => .noWord
  | cw :: ws =>
    match whyIllegal cw with
    | some reason => .illegal reason ws
    | none =>
      match operands cw ws with
      | some (i, rest) => .command i rest
      | none => .awaitingPayload

/-! The encoder -/

/-- The command word of an instruction: the encodings of R67, with the counts and the selector of R62. -/
def commandWord : Instr → Word
  | .build key _ nonce => cmdWord (BitVec.ofNat 8 nonce.length) (BitVec.ofNat 8 key.length) 0x01#8
  | .qround _ _ _ _ => cmdWord 0#8 0#8 0x02#8
  | .round .column _ => cmdWord 0#8 0#8 0x03#8
  | .round .diagonal _ => cmdWord 0#8 1#8 0x03#8
  | .blockfn _ => cmdWord 0#8 0#8 0x04#8
  | .init key nonce => cmdWord (BitVec.ofNat 8 nonce.length) (BitVec.ofNat 8 key.length) 0x05#8
  | .ksCurrent => cmdWord 0#8 0#8 0x06#8
  | .ksAdvance => cmdWord 0#8 0#8 0x07#8
  | .xorChunk len _ => cmdWord 0#8 (BitVec.ofNat 8 len) 0x08#8

/-- The payload words of an instruction, in order (R63). -/
def payload : Instr → List Word
  | .build key ctr nonce => key ++ ctr :: nonce
  | .qround a b c d => [a, b, c, d]
  | .round _ x => x.toList
  | .blockfn x => x.toList
  | .init key nonce => key ++ nonce
  | .ksCurrent => []
  | .ksAdvance => []
  | .xorChunk _ chunk => chunk

/-- The words the host sends for an instruction: the command word, then the payload (R60). -/
def encode (i : Instr) : List Word := commandWord i :: payload i

/-! The opcode table's words -/

/-- The first `n` 32-bit words of a number, the least significant first. -/
def splitWords : Nat → Nat → List Word
  | 0, _ => []
  | n + 1, w => BitVec.ofNat 32 w :: splitWords n (w / 2 ^ 32)

/-- The words of a table row's instruction with bits `w`, `nbits` of them, bit 0 the least significant bit of the first
word and every bit above `nbits` 0: the command word and as many payload words as it asks for (R63). -/
def tableWords (nbits w : Nat) : List Word :=
  splitWords (1 + payloadLength (BitVec.ofNat 32 (w % 2 ^ nbits))) (w % 2 ^ nbits)

/-- The instruction the decoder reads from an instruction whose bits are `w`. -/
def decodeTableWord (nbits w : Nat) : Option Instr :=
  match decode (tableWords nbits w) with
  | .command i _ => some i
  | .noWord => none
  | .illegal _ _ => none
  | .awaitingPayload => none

end Sys2Proof
end

