-- ==== Sys2Proof/Machine/Port.lean ====
section
/-! DEFINITION. What the port lets happen next: a whole command, an illegal command word, the acceptance of response words, or a
reset (R60, R63, R250, R251, R261). -/

namespace Sys2Proof.Machine

open Sys2Proof

/-- The words on the input channel before the next reset. -/
def arrivingWords : List PortEvent → List Word
  | .word w :: rest => w :: arrivingWords rest
  | .accept :: rest => arrivingWords rest
  | .acceptAll :: rest => arrivingWords rest
  | .reset :: _ => []
  | [] => []

/-- The host's acts after its next `n` words. An acceptance among them finds no response word and does nothing. -/
def afterWords : List PortEvent → Nat → List PortEvent
  | es, 0 => es
  | .word _ :: rest, n + 1 => afterWords rest n
  | .accept :: rest, n + 1 => afterWords rest (n + 1)
  | .acceptAll :: rest, n + 1 => afterWords rest (n + 1)
  | .reset :: rest, _ + 1 => .reset :: rest
  | [], _ + 1 => []

/-- The host's acts after the next reset, and `none` when none is to come. -/
def afterReset : List PortEvent → Option (List PortEvent)
  | .word _ :: rest => afterReset rest
  | .accept :: rest => afterReset rest
  | .acceptAll :: rest => afterReset rest
  | .reset :: rest => some rest
  | [] => none

/-- Words on the input channel as port events. -/
def asInput (ws : List Word) : List PortEvent := ws.map PortEvent.word

/-- What happens at the next step, and the host's acts after it. -/
inductive PortAction where
  /-- The host does nothing, and nothing is left to accept: the core holds its state (R235). -/
  | idle
  /-- Reset is asserted (R250). -/
  | reset (rest : List PortEvent)
  /-- The host accepts the next `n` response words, or those that are left where fewer are (R261). -/
  | accept (n : Nat) (rest : List PortEvent)
  /-- A whole command has arrived (R60). -/
  | command (i : Instr) (rest : List PortEvent)
  /-- An illegal command word has arrived, which takes no payload (R222). -/
  | illegal (reason : IllegalReason) (rest : List PortEvent)
  /-- The input ends inside a command (R262). -/
  | starved
  /-- Response words are left that the host never accepts (R261). -/
  | unaccepted
deriving DecidableEq, Repr

/-- The next action while response words are left: the core takes no command, and the words the host sends wait on the input
channel (R60, R261) until the host has accepted the response or asserts reset, with which they are lost (DEDUCED, log entry
5). `waiting` are the words passed so far, the latest first. -/
def whileResponding (left : Nat) : List PortEvent → List PortEvent → PortAction
  | .word w :: rest, waiting => whileResponding left rest (.word w :: waiting)
  | .accept :: rest, waiting => .accept 1 (waiting.reverse ++ rest)
  | .acceptAll :: rest, waiting => .accept left (waiting.reverse ++ rest)
  | .reset :: rest, _ => .reset rest
  | [], _ => .unaccepted

/-- The next action once the host has accepted every response word: the framing of R60 and R63. A reset that finds a command
only partly arrived discards it (R251). -/
def whileReady : List PortEvent → PortAction
  | [] => .idle
  | .reset :: rest => .reset rest
  | .accept :: rest => .accept 0 rest
  | .acceptAll :: rest => .accept 0 rest
  | .word cw :: rest =>
    match decode (cw :: arrivingWords rest) with
    | .command i _ => .command i (afterWords rest (payloadLength cw))
    | .illegal reason _ => .illegal reason rest
    | .awaitingPayload =>
      match afterReset rest with
      | some later => .reset later
      | none => .starved
    | .noWord => .starved

/-- The next action at the port: the core takes the next command only after the host has accepted the whole response before it
(R60, R261). -/
def nextAction (s : State) : PortAction :=
  match s.response with
  | [] => whileReady s.input
  | _ :: left => whileResponding (left.length + 1) s.input []

/-- The host sends these words next, before anything else it goes on to do. -/
def State.sendWords (s : State) (ws : List Word) : State := { s with input := asInput ws ++ s.input }

end Sys2Proof.Machine
end

