-- ==== Sys2Proof/Machine/Step.lean ====
section
/-! DEFINITION. One step of the machine: one whole command, one acceptance of response words, or one reset (R46, R48, R251,
R261). -/

namespace Sys2Proof.Machine

open Sys2Proof

/-- One step. The core has no program counter: the host's commands, in the order they arrive, are the program (R29).
DEDUCED: a step takes a whole command or one act of the host (log entry 3); where the core waits for ever the machine stops
(log entry 6). -/
def step (s : State) : Host.Outcome State Fault Refusal :=
  match nextAction s with
  | .idle => .next s
  | .reset rest => .next (assertReset { s with input := rest })
  | .accept n rest => .next (acceptWords n { s with input := rest })
  | .command i rest => exec i { s with input := rest }
  | .illegal _ rest => .next (illegalCommand { s with input := rest })
  | .starved => .fault .awaitingPayload
  | .unaccepted => .fault .awaitingAcceptance

/-- `s` after the host has accepted the whole response before it, with a table row's instruction, bits `w`, as the next command
the host sends (DESIGN CHOICE, log entry 7). -/
def State.withFetchWord (s : State) (nbits w : Nat) : State := (acceptResponse s).sendWords (tableWords nbits w)

end Sys2Proof.Machine
end

