-- ==== Sys2Proof/Machine/HostProtocol.lean ====
section
/-! DEFINITION. What the spec says of the host's side of the port: a sequence of commands, the stream `transform` as a
host protocol over `INIT` and `XOR_CHUNK` (R193), and the lines of a program as port events (R69, R70). -/

namespace Sys2Proof.Machine

open Sys2Proof

/-- A sequence of whole commands, each on the state the one before it left once the host has accepted its response (R48, R60). -/
def runCommands : List Instr → State → Host.Outcome State Fault Refusal
  | [], s => .next s
  | i :: rest, s =>
    match exec i s with
    | .next t => runCommands rest (acceptResponse t)
    | .fault r => .fault r
    | .refused r => .refused r

/-- The host's acts for one command: it sends the words and accepts the whole response (R60, R261). -/
def exchange (i : Instr) : List PortEvent := asInput (encode i) ++ [.acceptAll]

/-- The host accepts what is left of the response before, sends one command over the port and accepts its response. The answer is
that response's words and the state after it, and `none` where the machine stops. -/
def send (i : Instr) (s : State) : Option (List Word × State) :=
  match step { acceptResponse s with input := exchange i ++ s.input } with
  | .next t =>
    match step t with
    | .next u => some (t.response, u)
    | .fault _ => none
    | .refused _ => none
  | .fault _ => none
  | .refused _ => none

/-- `m` consecutive chunks of 64 bytes, the last one perhaps shorter (R193). -/
def chunksOf : Nat → List Byte → List (List Byte)
  | 0, _ => []
  | m + 1, bytes => bytes.take Config.chunkBytes :: chunksOf m (bytes.drop Config.chunkBytes)

/-- The chunks of a byte string of length `n`: `ceil(n / 64)` of them (R193). -/
def chunks (bytes : List Byte) : List (List Byte) :=
  chunksOf ((bytes.length + (Config.chunkBytes - 1)) / Config.chunkBytes) bytes

/-- The `XOR_CHUNK` command of one chunk (R193). -/
def chunkCommand (chunk : List Byte) : Instr := .xorChunk chunk.length (packBytes chunk)

/-- Sends one `XOR_CHUNK` per chunk and appends the bytes of the response words after the first to the output (R193).
DESIGN CHOICE (log entry 12): the spec does not say what the host does when a response is an error. This host goes on with the
next chunk, and an error response, which has no payload, appends nothing. -/
def sendChunks : List (List Byte) → State → Option (List Byte × State)
  | [], s => some ([], s)
  | chunk :: rest, s =>
    (send (chunkCommand chunk) s).bind fun sent =>
      (sendChunks rest sent.2).map fun later => (unpackWords (sent.1.drop 1) ++ later.1, later.2)

/-- `transform(input, key, nonce)` (R193): the output bytes and the state the core is left in.
DESIGN CHOICE (log entry 12): the host does not look at the status of a response, so on a core that is faulted at the start it
sends every chunk, and answers with no bytes. -/
def transform (key : Vector Word 8) (nonce : Vector Word 3) (input : List Byte) (s : State) :
    Option (List Byte × State) :=
  (send (.init key.toList nonce.toList) s).bind fun sent => sendChunks (chunks input) sent.2

/-- `pad64(P)` for a whole byte string (R196): right-padded with zero bytes to a multiple of 64. -/
def padStream (bytes : List Byte) : List Byte :=
  bytes ++ List.replicate ((Config.chunkBytes - bytes.length % Config.chunkBytes) % Config.chunkBytes) 0

/-- One line of a program (R69, R70), as data (DEDUCED, log entry 10). `INIT` and `BUILD` with
`k` and `n` omitted are `command` lines of 8 key words and 3 nonce words. -/
inductive Line where
  /-- A command with its payload. -/
  | command (i : Instr)
  /-- `@RESET`, one assertion of reset (R69). -/
  | reset
  /-- The pseudo-instruction `TRANSFORM key, nonce, bytes` (R70). -/
  | transform (key : Vector Word 8) (nonce : Vector Word 3) (bytes : List Byte)
deriving DecidableEq, Repr

/-- The host's acts for one line: it accepts every response (R69, R70). -/
def Line.events : Line → List PortEvent
  | .command i => exchange i
  | .reset => [.reset]
  | .transform key nonce bytes =>
    exchange (.init key.toList nonce.toList) ++ (chunks bytes).flatMap fun c => exchange (chunkCommand c)

/-- The host's acts for a program: its lines in order (R29, R69). -/
def assemble (program : List Line) : List PortEvent := program.flatMap Line.events

end Sys2Proof.Machine
end

