-- ==== Sys2Proof/Safety.lean ====
section
/-! DEFINITION. The terms that claims about runs use: the legal status values, what a step did, which commands touch the session,
what a run shows the host, and which states the host cannot tell apart. -/

namespace Sys2Proof.Machine

open Sys2Proof

/-- The status fields hold a value that R25 to R27 produce (R28, R34): the code is 0 while the latch is clear, and that of one
of the three errors while it is set. `NOT_CONFIGURED` is raised only without a session (R223), and no command sets `STATUS.CFG`
afterwards (R26). -/
def State.statusLegal (s : State) : Bool :=
  if s.flt then s.fcode == 0x01 || s.fcode == 0x02 || s.fcode == 0x03 && !s.cfg else s.fcode == 0x00

/-- The next step is a reset (R250, R251). -/
def State.resets (s : State) : Bool :=
  match nextAction s with
  | .reset _ => true
  | .idle => false
  | .accept _ _ => false
  | .command _ _ => false
  | .illegal _ _ => false
  | .starved => false
  | .unaccepted => false

/-- The next step takes a command word, legal or not, with its payload (R60). -/
def State.takesCommand (s : State) : Bool :=
  match nextAction s with
  | .command _ _ => true
  | .illegal _ _ => true
  | .idle => false
  | .reset _ => false
  | .accept _ _ => false
  | .starved => false
  | .unaccepted => false

/-- The next step is an `INIT` that succeeds (R165): it starts a new session. -/
def State.startsSession (s : State) : Bool :=
  match nextAction s with
  | .command (.init key nonce) _ => !s.flt && key.length == 8 && nonce.length == 3
  | .command _ _ => false
  | .reset _ => false
  | .accept _ _ => false
  | .idle => false
  | .illegal _ _ => false
  | .starved => false
  | .unaccepted => false

/-- The host has accepted the response before, and sends exactly this command word and its whole payload next (R60, R63). -/
def State.receives (s : State) (cw : Word) (ps : List Word) (rest : List PortEvent) : Prop :=
  s.response = [] ∧ s.input = asInput (cw :: ps) ++ rest ∧ ps.length = payloadLength cw

/-- The diagnostic commands of R67. -/
def diagnostic : Instr → Bool
  | .build _ _ _ => true
  | .qround _ _ _ _ => true
  | .round _ _ => true
  | .blockfn _ => true
  | .init _ _ => false
  | .ksCurrent => false
  | .ksAdvance => false
  | .xorChunk _ _ => false

/-- The commands that move the session to its next block (R167, R192). -/
def advances : Instr → Bool
  | .build _ _ _ => false
  | .qround _ _ _ _ => false
  | .round _ _ => false
  | .blockfn _ => false
  | .init _ _ => false
  | .ksCurrent => false
  | .ksAdvance => true
  | .xorChunk _ _ => true

/-- The number of payload words an `OK` response carries, by opcode (R65). -/
def okPayload : Instr → Nat
  | .build _ _ _ => 16
  | .qround _ _ _ _ => 4
  | .round _ _ => 16
  | .blockfn _ => 16
  | .init _ _ => 0
  | .ksCurrent => 16
  | .ksAdvance => 0
  | .xorChunk _ _ => 16

/-- The observation of a run (R262): every response word that the host has accepted, in order. -/
def State.observed (s : State) : List Word := s.emitted

/-- What a run shows the host when it has come to a next state: the words it has accepted and those it may accept next. `none`
when the run stopped. -/
def observation : Host.Outcome State Fault Refusal → Option (List Word × List Word)
  | .next s => some (s.observed, s.response)
  | .fault _ => none
  | .refused _ => none

/-- The run has ended (R262): the host does nothing more, and no word of the last response is left to be emitted. DESIGN CHOICE
(log entry 13): a run whose last response a final reset has cut off (R251) counts as ended, where R262 says "emitted in full". -/
def State.runEnded (s : State) : Bool := s.input.isEmpty && s.response.isEmpty

/-- Two states that differ at most in what `KEY`, `NONCE` and `CTR` hold (R250). -/
def sameButSession (s t : State) : Prop := ∃ k n c, t = { s with key := k, nonce := n, ctr := c }

end Sys2Proof.Machine
end

