-- ==== Sys2Proof/Certificates/Slice0/Obligations.lean ====
section
/-! DEFINITION. The statements for the provers. Each docstring names the rules of spec/ it formalises. -/

open Sys2Proof Sys2Proof.Machine

/-! Encoding -/

/-- Derived from the encodings of spec/30_encoding.md and the vectors V-ENC of spec/95_test_vectors.md: command words written
out from them, with payloads, decode to the commands they stand for. -/
def Obligations.SpecWordsDecodeToTheirCommands : Prop :=
  decode [0x00030801, 1, 2, 3, 4, 5, 6, 7, 8, 9, 10, 11, 12] = .command (.build [1, 2, 3, 4, 5, 6, 7, 8] 9 [10, 11, 12]) [] ∧
  decode [0x00000002, 1, 2, 3, 4] = .command (.qround 1 2 3 4) [] ∧
  (∀ x : Block, decode (0x00000003 :: x.toList) = .command (.round .column x) []) ∧
  (∀ x : Block, decode (0x00000103 :: x.toList) = .command (.round .diagonal x) []) ∧
  (∀ x : Block, decode (0x00000004 :: x.toList) = .command (.blockfn x) []) ∧
  decode [0x00030805, 1, 2, 3, 4, 5, 6, 7, 8, 9, 10, 11] = .command (.init [1, 2, 3, 4, 5, 6, 7, 8] [9, 10, 11]) [] ∧
  decode [0x00030705, 1, 2, 3, 4, 5, 6, 7, 8, 9, 10] = .command (.init [1, 2, 3, 4, 5, 6, 7] [8, 9, 10]) [] ∧
  decode [0x00000006] = .command .ksCurrent [] ∧
  decode [0x00000007] = .command .ksAdvance [] ∧
  decode [0x00000608, 1, 2] = .command (.xorChunk 6 [1, 2]) [] ∧
  decode [0x00000108, 1] = .command (.xorChunk 1 [1]) []

/-- Derived from spec/30_encoding.md: decoding the words of any well-formed command, followed by any words, gives that command
back and leaves the words after it, so no bit of an encoding is dropped. -/
def Obligations.DecodeOfEncodeIsTheCommand : Prop :=
  ∀ (i : Instr) (after : List Word), i.wellFormed = true → decode (encode i ++ after) = .command i after

/-- Derived from spec/30_encoding.md: every decoding is of a well-formed command whose encoding is exactly the words taken, so
each legal word with its payload has one meaning. -/
def Obligations.EncodeOfDecodeIsTheWordsTaken : Prop :=
  ∀ (ws : List Word) (i : Instr) (after : List Word),
    decode ws = .command i after → i.wellFormed = true ∧ ws = encode i ++ after

/-- R64: the words the decoder rejects are exactly those for which `legal` is false, which are exactly those R64 lists; and on
an unfaulted core each raises `ILLEGAL_COMMAND`. -/
def Obligations.IllegalWordsAreExactlyThoseOfTheSpec : Prop :=
  ∀ cw : Word,
    (∀ ws, (∃ reason after, decode (cw :: ws) = .illegal reason after) ↔ legal cw = false) ∧
    (legal cw = false ↔
      cw.toNat / 2 ^ 24 ≠ 0 ∨ cw.toNat % 256 = 0 ∨ 9 ≤ cw.toNat % 256 ∨
      (cw.toNat % 256 = 2 ∨ cw.toNat % 256 = 4 ∨ cw.toNat % 256 = 6 ∨ cw.toNat % 256 = 7) ∧ cw.toNat / 256 % 65536 ≠ 0 ∨
      cw.toNat % 256 = 3 ∧ (cw.toNat / 65536 % 256 ≠ 0 ∨ 2 ≤ cw.toNat / 256 % 256) ∨
      cw.toNat % 256 = 8 ∧
        (cw.toNat / 65536 % 256 ≠ 0 ∨ cw.toNat / 256 % 256 = 0 ∨ 64 < cw.toNat / 256 % 256)) ∧
    (∀ (s : State) (rest : List PortEvent), s.flt = false → s.response = [] → s.input = .word cw :: rest →
      legal cw = false → step s = .next (raise .illegalCommand { s with input := rest }))

/-- R63: `pl(cw)` by opcode, 0 for an illegal word; whatever the core's state, one step consumes the command word and exactly
`pl(cw)` payload words; and a legal word's command has those words, in order, as its payload. -/
def Obligations.EveryCommandWordTakesItsPayloadLength : Prop :=
  (∀ cw : Word, payloadLength cw =
    if legal cw = false then 0
    else if cw.toNat % 256 = 1 then cw.toNat / 256 % 256 + 1 + cw.toNat / 65536 % 256
    else if cw.toNat % 256 = 2 then 4
    else if cw.toNat % 256 = 3 ∨ cw.toNat % 256 = 4 then 16
    else if cw.toNat % 256 = 5 then cw.toNat / 256 % 256 + cw.toNat / 65536 % 256
    else if cw.toNat % 256 = 8 then (cw.toNat / 256 % 256 + 3) / 4
    else 0) ∧
  (∀ (s : State) (cw : Word) (ps : List Word) (rest : List PortEvent), s.receives cw ps rest →
    (∃ t, step s = .next t ∧ t.input = rest) ∧
    (legal cw = true → ∃ i, commandWord i = cw ∧ payload i = ps ∧ step s = exec i { s with input := rest }))

/-! The step and the port -/

/-- Derived from spec/20_memory.md sections 3 and 4 and spec/30_encoding.md section 1: when the host has accepted the response
before and the words of a well-formed command are its next words, one step is `exec` of that command on the state whose input is what the host does after it; nothing
else is added. That one step takes a whole command is log entry 3. -/
def Obligations.StepRunsTheDecodedCommand : Prop :=
  ∀ (s : State) (i : Instr) (rest : List PortEvent),
    i.wellFormed = true → s.response = [] → s.input = asInput (encode i) ++ rest →
    step s = exec i { s with input := rest }

/-- Derived from spec/20_memory.md section 4, spec/30_encoding.md section 1 and spec/70_reset_and_hazards.md section 5: a whole
sequence of well-formed commands, each with the acceptance of its response, runs in order, as the commands' meanings composed. That
this takes two steps a command is the model's choice: the command is one step (log entry 3) and the acceptance of its response, an
act of the host, is another (log entries 3 and 4), where R60 counts the command's step only. -/
def Obligations.StepsRunTheCommandSequenceInOrder : Prop :=
  ∀ (cmds : List Instr) (s : State) (rest : List PortEvent),
    (∀ i ∈ cmds, i.wellFormed = true) → s.response = [] → s.input = cmds.flatMap exchange ++ rest →
    core.run (2 * cmds.length) s = runCommands cmds { s with input := rest }

/-- Derived from spec/30_encoding.md section 1 and spec/70_reset_and_hazards.md section 5: while response words are left the core
takes no command. The words the host sends wait; behind them the host accepts the next word or all that are left, or asserts
reset, after which the rest is not emitted. With nothing but words to come the core waits for ever, a fault of the model (log
entry 6). An acceptance that finds no response word does nothing (log entry 4), and the waiting words are lost with a reset (log
entry 5). -/
def Obligations.PendingResponseHoldsBackTheNextCommand : Prop :=
  (∀ (s : State) (ws : List Word), s.response ≠ [] →
    (s.input = asInput ws → step s = .fault .awaitingAcceptance) ∧
    (∀ rest, s.input = asInput ws ++ .accept :: rest → step s = .next { s with
      input := asInput ws ++ rest, emitted := s.emitted ++ s.response.take 1, response := s.response.drop 1 }) ∧
    (∀ rest, s.input = asInput ws ++ .acceptAll :: rest → step s = .next { s with
      input := asInput ws ++ rest, emitted := s.emitted ++ s.response, response := [] }) ∧
    (∀ rest, s.input = asInput ws ++ .reset :: rest → step s = step { s with input := .reset :: rest })) ∧
  (∀ (s : State) (e : PortEvent) (rest : List PortEvent), s.response = [] → e = .accept ∨ e = .acceptAll →
    s.input = e :: rest → step s = .next { s with input := rest }) ∧
  ∀ s t : State, s.response ≠ [] → step s = .next t → s.takesCommand = false ∧ (s.resets = false →
    t = { s with input := t.input, emitted := t.emitted, response := t.response } ∧
      t.emitted ++ t.response = s.emitted ++ s.response)

/-- Derived from spec/30_encoding.md section 1: when the decoder reads an instruction from a table word, the step after
`withFetchWord` has placed that word is `exec` of that instruction, on the state in which the host has accepted the response
before. The placing is the model's own, log entry 7. -/
def Obligations.PlacedTableWordIsTheNextInstructionRun : Prop :=
  ∀ (s : State) (nbits w : Nat) (i : Instr), decodeTableWord nbits w = some i →
    step (s.withFetchWord nbits w) = exec i { s with emitted := s.emitted ++ s.response, response := [] }

/-- R222: an illegal word raises `ILLEGAL_COMMAND`, consuming no payload; the words after it are read as further command
words, and each of those, once the host has accepted the response before, is refused with `FAULTED`. -/
def Obligations.IllegalWordConsumesNoPayloadAndFaults : Prop :=
  ∀ (s : State) (cw : Word) (rest : List PortEvent),
    s.flt = false → s.response = [] → legal cw = false → s.input = .word cw :: rest →
    step s = .next { s with input := rest, flt := true, fcode := 0x02, response := [0x00000002] } ∧
    ∀ t, step s = .next t → ∀ w ps more, (acceptResponse t).receives w ps more →
      step (acceptResponse t) = .next { acceptResponse t with input := more, response := [0x00020004] }

/-- R224: a faulted core answers every command, legal or not, with `FAULTED` and the first error's code as `CAUSE`, consumes
its payload and changes no register. -/
def Obligations.FaultedCoreRefusesEveryCommand : Prop :=
  ∀ (s : State) (cw : Word) (ps : List Word) (rest : List PortEvent),
    s.flt = true → s.receives cw ps rest →
    step s = .next { s with input := rest, response := [0#8 ++ s.fcode ++ 0x0004#16] }

/-- R225, with the status codes of R66: each command reports at most one error, the first that applies in the order `FAULTED`,
`ILLEGAL_COMMAND`, `CONFIG_ERROR`, `NOT_CONFIGURED`; otherwise it executes and responds `OK`. -/
def Obligations.FirstErrorInPriorityOrderIsReported : Prop :=
  ∀ (s : State) (cw : Word) (ps : List Word) (rest : List PortEvent), s.receives cw ps rest →
    ∃ t, step s = .next t ∧
      (t.response.headD 0).toNat % 256 =
        if s.flt = true then 0x04
        else if legal cw = false then 0x02
        else if (cw.toNat % 256 = 1 ∨ cw.toNat % 256 = 5) ∧
          (cw.toNat / 256 % 256 ≠ 8 ∨ cw.toNat / 65536 % 256 ≠ 3) then 0x01
        else if (cw.toNat % 256 = 6 ∨ cw.toNat % 256 = 7 ∨ cw.toNat % 256 = 8) ∧ s.cfg = false then 0x03
        else 0x00

/-- R226: raising an error sets the fault latch, records the error's code, responds with it and no payload, and writes nothing
else. -/
def Obligations.RaiseWritesTheLatchAndTheCodeOnly : Prop :=
  ∀ (e : Err) (s : State),
    raise e s = { s with
      flt := true
      fcode := match e with | .configError => 0x01 | .illegalCommand => 0x02 | .notConfigured => 0x03
      response := s.response ++ [match e with | .configError => 0x00000001 | .illegalCommand => 0x00000002 | .notConfigured => 0x00000003] }

/-- R65: every command gives exactly one response, after those before it: a response word of the format `RSP`, whose `NOUT` is
the number of payload words after it, 0 for an error and fixed by the opcode for `OK`, whose status is one of the five codes,
and whose `CAUSE` is `STATUS.FCODE` for `FAULTED` and 0 otherwise. The last clause says the same of an illegal word. -/
def Obligations.EveryCommandGivesOneResponseOfTheFormat : Prop :=
  (∀ (i : Instr) (s t : State), exec i s = .next t →
    t.emitted = s.emitted ∧
    ∃ w out, t.response = s.response ++ w :: out ∧
      w.toNat / 2 ^ 24 = 0 ∧
      w.toNat / 2 ^ 8 % 256 = out.length ∧
      w.toNat % 256 ≤ 4 ∧
      (w.toNat % 256 = 0 → out.length = okPayload i) ∧
      (w.toNat % 256 ≠ 0 → out = []) ∧
      w.toNat / 2 ^ 16 % 256 = if w.toNat % 256 = 4 then t.fcode.toNat else 0) ∧
  ∀ s : State, (illegalCommand s).emitted = s.emitted ∧
    (illegalCommand s).response = s.response ++ [if s.flt then 0#8 ++ s.fcode ++ 0x0004#16 else 0x00000002]

/-- Derived from spec/70_reset_and_hazards.md section 5: the machine stops only where the core waits for ever. Either the host has
accepted the response before, and its acts end, with no reset to come, inside a legal command with too few payload words; or
response words are left, and nothing but words is to come. Every other state has a next state, and no step is refused. That
these stops are faults of the model is log entry 6. -/
def Obligations.StepStopsOnlyWhereTheCoreWaitsForEver : Prop :=
  ∀ s : State,
    (∀ r, step s ≠ .refused r) ∧
    (∀ f, step s = .fault f ↔
      (f = .awaitingPayload ∧ s.response = [] ∧ ∃ cw rest, s.input = .word cw :: rest ∧ .reset ∉ rest ∧
        legal cw = true ∧ (arrivingWords rest).length < payloadLength cw) ∨
      (f = .awaitingAcceptance ∧ s.response ≠ [] ∧ ∃ ws, s.input = asInput ws))

/-- Derived from spec/60_exceptions.md section 3: when the host does nothing more and has accepted every response, the core
holds its state. (`runEnded` counts a response that a reset has cut off as done with: log entry 13.) -/
def Obligations.IdleCoreHoldsItsState : Prop :=
  ∀ s : State, s.runEnded = true → step s = .next s

/-! Reset -/

/-- Derived from spec/70_reset_and_hazards.md section 1: reset clears the status fields and leaves `KEY`, `NONCE` and `CTR` without
a value that any command can read (`session` is `none`; what the registers hold is log entry 2); the constants keep theirs, and
the host's acts go on after it. The reset state is the same. -/
def Obligations.ResetClearsTheStatusAndTheSession : Prop :=
  (∀ (s : State) (rest : List PortEvent), s.input = .reset :: rest →
    ∃ t, step s = .next t ∧ t.cfg = false ∧ t.flt = false ∧ t.fcode = 0x00 ∧ t.session = none ∧
      t.sigma = s.sigma ∧ t.input = rest ∧ t.response = [] ∧ t.emitted = s.emitted) ∧
  State.reset.cfg = false ∧ State.reset.flt = false ∧ State.reset.fcode = 0x00 ∧ State.reset.session = none ∧
  State.reset.statusWord = 0x00000000

/-- Derived from spec/70_reset_and_hazards.md section 1: a reset discards a command that has only partly arrived: the step is the
one that reset alone would have taken. A reset while a response is being emitted leaves exactly the words already accepted of it,
with the state of a reset. What `KEY`, `NONCE` and `CTR` hold in that state, the same free values after every reset, is the model's
choice (log entry 2). -/
def Obligations.ResetDiscardsPartialCommandAndTruncatesResponse : Prop :=
  (∀ (s : State) (cw : Word) (ps : List Word) (rest : List PortEvent), s.response = [] →
    legal cw = true → ps.length < payloadLength cw → s.input = asInput (cw :: ps) ++ .reset :: rest →
    step s = step { s with input := .reset :: rest }) ∧
  (∀ (s : State) (rest : List PortEvent), s.input = .reset :: rest →
    step s = step { s with response := [] } ∧
    step s = .next { State.resetWith s.sigma with input := rest, emitted := s.emitted })

/-- Derived from spec/70_reset_and_hazards.md section 1: what `KEY`, `NONCE` and `CTR` hold while no session is configured cannot be
observed. Two cores that differ only there show the host the same words after any number of steps, whatever the host does. The
values at reset are free values of the model (log entry 2); this says that no run shows them. -/
def Obligations.UnconfiguredSessionValuesAreUnobservable : Prop :=
  ∀ (s t : State), s.cfg = false → sameButSession s t →
    ∀ n, observation (core.run n s) = observation (core.run n t)

/-! The units -/

/-- R120, with `rotl` as R10 writes it: the quarter round, assignment by assignment. -/
def Obligations.QuarterRoundIsTheFourSteps : Prop :=
  ∀ a b c d a1 d1 c1 b1 a2 d2 c2 b2 : Word,
    a1 = a + b → d1 = ((d ^^^ a1) <<< 16 ||| (d ^^^ a1) >>> 16) →
    c1 = c + d1 → b1 = ((b ^^^ c1) <<< 12 ||| (b ^^^ c1) >>> 20) →
    a2 = a1 + b1 → d2 = ((d1 ^^^ a2) <<< 8 ||| (d1 ^^^ a2) >>> 24) →
    c2 = c1 + d2 → b2 = ((b1 ^^^ c2) <<< 7 ||| (b1 ^^^ c2) >>> 25) →
    quarterRound a b c d = (a2, b2, c2, d2)

/-- Derived from spec/41_quarter_round.md section 1, whose own inferences these are: the quarter round is a bijection on four-word
tuples, and the zero tuple is a fixed point. -/
def Obligations.QuarterRoundIsABijection : Prop :=
  Function.Bijective (fun x : Word × Word × Word × Word => quarterRound x.1 x.2.1 x.2.2.1 x.2.2.2) ∧
  quarterRound 0 0 0 0 = (0, 0, 0, 0)

/-- R122: a quarter round at four indices writes its four results back to them, and the other 12 words are unchanged. -/
def Obligations.QuarterRoundAtFourIndicesLeavesTheOthers : Prop :=
  ∀ (x : Block) (ia ib ic id : Fin 16), [ia, ib, ic, id].Nodup →
    ((qrAt x ia ib ic id)[ia], (qrAt x ia ib ic id)[ib], (qrAt x ia ib ic id)[ic], (qrAt x ia ib ic id)[id]) =
      quarterRound x[ia] x[ib] x[ic] x[id] ∧
    ∀ j : Fin 16, j ∉ [ia, ib, ic, id] → (qrAt x ia ib ic id)[j] = x[j]

/-- R123 and R124: the column round is a quarter round on each column of the matrix, the diagonal round one on each
diagonal. -/
def Obligations.RoundsActOnColumnsAndDiagonals : Prop :=
  ∀ x : Block,
    (∀ g ∈ [((0, 4, 8, 12) : Fin 16 × Fin 16 × Fin 16 × Fin 16), (1, 5, 9, 13), (2, 6, 10, 14), (3, 7, 11, 15)],
      ((columnRound x)[g.1], (columnRound x)[g.2.1], (columnRound x)[g.2.2.1], (columnRound x)[g.2.2.2]) =
        quarterRound x[g.1] x[g.2.1] x[g.2.2.1] x[g.2.2.2]) ∧
    (∀ g ∈ [((0, 5, 10, 15) : Fin 16 × Fin 16 × Fin 16 × Fin 16), (1, 6, 11, 12), (2, 7, 8, 13), (3, 4, 9, 14)],
      ((diagonalRound x)[g.1], (diagonalRound x)[g.2.1], (diagonalRound x)[g.2.2.1], (diagonalRound x)[g.2.2.2]) =
        quarterRound x[g.1] x[g.2.1] x[g.2.2.1] x[g.2.2.2])

/-- R125: the four index groups of a round are disjoint and cover all 16 words, and the four quarter rounds give the same result
in any order. -/
def Obligations.QuarterRoundsOfARoundRunInAnyOrder : Prop :=
  ∀ (x : Block) (gs : List (Fin 16 × Fin 16 × Fin 16 × Fin 16)),
    (gs.Perm [(0, 4, 8, 12), (1, 5, 9, 13), (2, 6, 10, 14), (3, 7, 11, 15)] →
      (gs.flatMap fun g => [g.1, g.2.1, g.2.2.1, g.2.2.2]).Perm (List.finRange 16) ∧
      gs.foldl (fun y g => qrAt y g.1 g.2.1 g.2.2.1 g.2.2.2) x = columnRound x) ∧
    (gs.Perm [(0, 5, 10, 15), (1, 6, 11, 12), (2, 7, 8, 13), (3, 4, 9, 14)] →
      (gs.flatMap fun g => [g.1, g.2.1, g.2.2.1, g.2.2.2]).Perm (List.finRange 16) ∧
      gs.foldl (fun y g => qrAt y g.1 g.2.1 g.2.2.1 g.2.2.2) x = diagonalRound x)

/-- R140: the block function is rounds 1 to 20 in order, the odd ones column and the even ones diagonal rounds. -/
def Obligations.BlockFunctionRunsTwentyAlternatingRounds : Prop :=
  ∀ x : Block, run x = (List.range 20).foldl (fun y k => if (k + 1) % 2 = 1 then columnRound y else diagonalRound y) x

/-- Derived from spec/42_block_function.md, whose own inferences these are: the block function is ten double rounds, and maps the
zero state to itself. -/
def Obligations.BlockFunctionIsTenDoubleRounds : Prop :=
  (∀ x : Block, run x = (fun y => diagonalRound (columnRound y))^[10] x) ∧
  run (Vector.replicate 16 0) = Vector.replicate 16 0

/-- R100 and R101: `build` fails exactly for a key of other than 8 words or a nonce of other than 3, whatever the words' values,
and otherwise places the constants, the key, the counter and the nonce as R101 lays them out. -/
def Obligations.BuildLaysOutTheState : Prop :=
  ∀ (sigma : Vector Word 4) (key : List Word) (ctr : Word) (nonce : List Word),
    (build sigma key ctr nonce = none ↔ key.length ≠ 8 ∨ nonce.length ≠ 3) ∧
    ∀ x, build sigma key ctr nonce = some x →
      (∀ i : Fin 4, x[i.val] = sigma[i]) ∧ (∀ i : Fin 8, some x[4 + i.val] = key[i.val]?) ∧
      x[12] = ctr ∧ (∀ i : Fin 3, some x[13 + i.val] = nonce[i.val]?)

/-- R161: feed-forward adds the block function's output to its input, word by word, modulo 2^32. -/
def Obligations.FeedforwardAddsTheInput : Prop :=
  ∀ (x : Block) (i : Fin 16), ((feedforward x)[i]).toNat = (((run x)[i]).toNat + (x[i]).toNat) % 2 ^ 32

/-- R42: `le32_bytes` and `le32_word` are the little-endian conversions and inverse to each other, and `serialize` joins the
bytes of the 16 words in order. -/
def Obligations.LittleEndianConversionsAreInverse : Prop :=
  (∀ w : Word, le32Bytes w = (List.range 4).map fun j => BitVec.ofNat 8 (w.toNat / 2 ^ (8 * j))) ∧
  (∀ b0 b1 b2 b3 : Byte,
    (le32Word b0 b1 b2 b3).toNat = b0.toNat + 2 ^ 8 * b1.toNat + 2 ^ 16 * b2.toNat + 2 ^ 24 * b3.toNat) ∧
  (∀ w : Word, (match le32Bytes w with | [b0, b1, b2, b3] => some (le32Word b0 b1 b2 b3) | _ => none) = some w) ∧
  (∀ ks : Block, serialize ks = (ks.toList.map le32Bytes).flatten)

/-- R162: serialisation gives exactly 64 bytes, and byte `4i + j` is bits `8j+7 : 8j` of word `i` (the byte order of R41). -/
def Obligations.SerialisedByteIsTheWordsByte : Prop :=
  ∀ ks : Block, (serialize ks).length = 64 ∧
    ∀ (i : Fin 16) (j : Fin 4), (serialize ks)[4 * i.val + j.val]? = some ((ks[i]).extractLsb' (8 * j.val) 8)

/-- R43: byte `j` of a byte string crosses the port in word `j div 4` at bits `8(j mod 4)+7 : 8(j mod 4)`, in both directions; a
`KS_CURRENT` response's payload is the block's words; and the exclusive or of packed words is that of their bytes. -/
def Obligations.ByteStreamsCrossThePortLittleEndian : Prop :=
  (∀ bytes : List Byte, (packBytes bytes).length = (bytes.length + 3) / 4 ∧
    ∀ (j : Nat) (h : j < bytes.length),
      ((packBytes bytes).getD (j / 4) 0).extractLsb' (8 * (j % 4)) 8 = bytes[j]) ∧
  (∀ (ws : List Word) (j : Nat), j < 4 * ws.length →
    (unpackWords ws)[j]? = some ((ws.getD (j / 4) 0).extractLsb' (8 * (j % 4)) 8)) ∧
  (∀ (s : State) (x : Session), s.flt = false → s.session = some x →
    ∃ t, exec .ksCurrent s = .next t ∧ ∃ w, t.response = s.response ++ w :: (ksWords s.sigma x).toList) ∧
  (∀ x y : Word, le32Bytes (x ^^^ y) = List.zipWith (· ^^^ ·) (le32Bytes x) (le32Bytes y))

/-- R190: the padded chunk's words are the data words, the low bytes of the last one, and zeros; as bytes they are the chunk's
`L` bytes and then zero bytes up to 64, whatever the host sent past the chunk's end. -/
def Obligations.ShortChunkIsPaddedWithZeroBytes : Prop :=
  ∀ (len : Nat) (ws : List Word), 1 ≤ len → len ≤ 64 → ws.length = (len + 3) / 4 →
    (∀ i : Fin 16, (padChunk len ws)[i] =
      if 4 * i.val + 4 ≤ len then ws.getD i.val 0
      else if 4 * i.val < len then ws.getD i.val 0 &&& BitVec.ofNat 32 (2 ^ (8 * (len - 4 * i.val)) - 1)
      else 0) ∧
    serialize (padChunk len ws) = (unpackWords ws).take len ++ List.replicate (64 - len) 0

/-- R191: the exclusive or of the padded chunk with the keystream block is byte-wise over all 64 bytes, and the padding bytes
come out as the keystream's. -/
def Obligations.ChunkIsXoredByteByByte : Prop :=
  ∀ (len : Nat) (ws : List Word) (ks : Block), 1 ≤ len → len ≤ 64 → ws.length = (len + 3) / 4 →
    (∀ i : Fin 16, (xorBlocks (padChunk len ws) ks)[i] = (padChunk len ws)[i] ^^^ ks[i]) ∧
    serialize (xorBlocks (padChunk len ws) ks) =
      List.zipWith (· ^^^ ·) (padBytes64 ((unpackWords ws).take len)) (serialize ks) ∧
    (serialize (xorBlocks (padChunk len ws) ks)).drop len = (serialize ks).drop len

/-! The commands -/

/-- R106: `BUILD` encodes as `0x00_BB_AA_01`, is illegal only for `RSV ≠ 0`, needs no session, raises `CONFIG_ERROR` for a wrong
word count, and otherwise returns the state of its operands and changes no register. -/
def Obligations.BuildCommandReturnsTheState : Prop :=
  (∀ cw : Word, cw.toNat % 256 = 1 → (legal cw = true ↔ cw.toNat / 2 ^ 24 = 0)) ∧
  ∀ (key : List Word) (ctr : Word) (nonce : List Word) (s : State),
    (key.length ≤ 255 → nonce.length ≤ 255 →
      encode (.build key ctr nonce) =
        BitVec.ofNat 32 (1 + 2 ^ 8 * key.length + 2 ^ 16 * nonce.length) :: key ++ [ctr] ++ nonce) ∧
    (s.flt = true → exec (.build key ctr nonce) s = .next { s with
      response := s.response ++ [0#8 ++ s.fcode ++ 0x0004#16] }) ∧
    (s.flt = false → key.length ≠ 8 ∨ nonce.length ≠ 3 → exec (.build key ctr nonce) s = .next { s with
      flt := true, fcode := 0x01, response := s.response ++ [0x00000001] }) ∧
    (s.flt = false → ∀ (k : Vector Word 8) (n : Vector Word 3), key = k.toList → nonce = n.toList →
      exec (.build key ctr nonce) s = .next { s with
        response := s.response ++ 0x00001000 :: (s.sigma.toList ++ key ++ [ctr] ++ nonce) })

/-- R126: `QROUND` encodes as `0x00000002` alone, needs no session, and returns the quarter round of its four words; its corner
cases. -/
def Obligations.QroundCommandReturnsTheQuarterRound : Prop :=
  (∀ cw : Word, cw.toNat % 256 = 2 → (legal cw = true ↔ cw = 0x00000002)) ∧
  quarterRound 0 0 0 0 = (0, 0, 0, 0) ∧
  quarterRound 0xffffffff 0xffffffff 0xffffffff 0xffffffff = (0xf0000ffd, 0x88790878, 0x0110fdef, 0x010ffdf0) ∧
  ∀ (a b c d : Word) (s : State),
    encode (.qround a b c d) = [0x00000002, a, b, c, d] ∧
    (s.flt = true → exec (.qround a b c d) s = .next { s with
      response := s.response ++ [0#8 ++ s.fcode ++ 0x0004#16] }) ∧
    (s.flt = false → ∀ a' b' c' d', quarterRound a b c d = (a', b', c', d') →
      exec (.qround a b c d) s = .next { s with
        response := s.response ++ [0x00000400, a', b', c', d'] })

/-- R127: `ROUND` encodes as `0x00000003` (column) or `0x00000103` (diagonal) alone, needs no session, and returns that round of its
16 words; both rounds map the zero state to itself. -/
def Obligations.RoundCommandReturnsTheRound : Prop :=
  (∀ cw : Word, cw.toNat % 256 = 3 → (legal cw = true ↔ cw = 0x00000003 ∨ cw = 0x00000103)) ∧
  columnRound (Vector.replicate 16 0) = Vector.replicate 16 0 ∧
  diagonalRound (Vector.replicate 16 0) = Vector.replicate 16 0 ∧
  ∀ (x : Block) (s : State),
    encode (.round .column x) = 0x00000003 :: x.toList ∧
    encode (.round .diagonal x) = 0x00000103 :: x.toList ∧
    (s.flt = true → ∀ p, exec (.round p x) s = .next { s with
      response := s.response ++ [0#8 ++ s.fcode ++ 0x0004#16] }) ∧
    (s.flt = false → exec (.round .column x) s = .next { s with
      response := s.response ++ 0x00001000 :: (columnRound x).toList }) ∧
    (s.flt = false → exec (.round .diagonal x) s = .next { s with
      response := s.response ++ 0x00001000 :: (diagonalRound x).toList })

/-- R145: `BLOCKFN` encodes as `0x00000004` alone, needs no session, and returns the 20 rounds of its 16 words, with no
feed-forward. -/
def Obligations.BlockfnCommandReturnsTheTwentyRounds : Prop :=
  (∀ cw : Word, cw.toNat % 256 = 4 → (legal cw = true ↔ cw = 0x00000004)) ∧
  ∀ (x : Block) (s : State),
    encode (.blockfn x) = 0x00000004 :: x.toList ∧
    (s.flt = true → exec (.blockfn x) s = .next { s with
      response := s.response ++ [0#8 ++ s.fcode ++ 0x0004#16] }) ∧
    (s.flt = false → exec (.blockfn x) s = .next { s with
      response := s.response ++ 0x00001000 ::
        ((List.range 20).foldl (fun y k => if (k + 1) % 2 = 1 then columnRound y else diagonalRound y) x).toList })

/-- R165: `INIT` encodes as `0x00_BB_AA_05`, is illegal only for `RSV ≠ 0`, raises `CONFIG_ERROR` for a wrong word count, leaving
the session as it was, and otherwise starts a session with the key and the nonce at counter 0, replacing any before it. -/
def Obligations.InitCommandStartsTheSession : Prop :=
  (∀ cw : Word, cw.toNat % 256 = 5 → (legal cw = true ↔ cw.toNat / 2 ^ 24 = 0)) ∧
  ∀ (key nonce : List Word) (s : State),
    (key.length ≤ 255 → nonce.length ≤ 255 →
      encode (.init key nonce) =
        BitVec.ofNat 32 (5 + 2 ^ 8 * key.length + 2 ^ 16 * nonce.length) :: key ++ nonce) ∧
    (s.flt = true → exec (.init key nonce) s = .next { s with
      response := s.response ++ [0#8 ++ s.fcode ++ 0x0004#16] }) ∧
    (s.flt = false → key.length ≠ 8 ∨ nonce.length ≠ 3 → exec (.init key nonce) s = .next { s with
      flt := true, fcode := 0x01, response := s.response ++ [0x00000001] }) ∧
    (s.flt = false → ∀ (k : Vector Word 8) (n : Vector Word 3), key = k.toList → nonce = n.toList →
      exec (.init key nonce) s = .next { s with
        key := k, nonce := n, ctr := 0, cfg := true
        response := s.response ++ [0x00000000] })

/-- R166: `KS_CURRENT` encodes as `0x00000006` alone, raises `NOT_CONFIGURED` without a session, and with one returns the
keystream block of R161 and R163 for the current counter, whose unpacked bytes are `ks_bytes`, and changes no register. -/
def Obligations.KsCurrentCommandReturnsTheBlock : Prop :=
  (∀ cw : Word, cw.toNat % 256 = 6 → (legal cw = true ↔ cw = 0x00000006)) ∧
  encode .ksCurrent = [0x00000006] ∧
  ∀ s : State,
    (s.flt = true → exec .ksCurrent s = .next { s with
      response := s.response ++ [0#8 ++ s.fcode ++ 0x0004#16] }) ∧
    (s.flt = false → s.cfg = false → exec .ksCurrent s = .next { s with
      flt := true, fcode := 0x03, response := s.response ++ [0x00000003] }) ∧
    (s.flt = false → s.cfg = true → ∀ x, build s.sigma s.key.toList s.ctr s.nonce.toList = some x →
      exec .ksCurrent s = .next { s with
        response := s.response ++ 0x00001000 :: List.zipWith (· + ·) (run x).toList x.toList } ∧
      unpackWords (List.zipWith (· + ·) (run x).toList x.toList) = ksBytes s.sigma ⟨s.key, s.nonce, s.ctr⟩)

/-- R167: `KS_ADVANCE` encodes as `0x00000007` alone, raises `NOT_CONFIGURED` without a session, and with one adds 1 to the counter
modulo 2^32 and changes no other register and no flag. -/
def Obligations.KsAdvanceCommandIncrementsTheCounter : Prop :=
  (∀ cw : Word, cw.toNat % 256 = 7 → (legal cw = true ↔ cw = 0x00000007)) ∧
  encode .ksAdvance = [0x00000007] ∧
  ∀ s : State,
    (s.flt = true → exec .ksAdvance s = .next { s with
      response := s.response ++ [0#8 ++ s.fcode ++ 0x0004#16] }) ∧
    (s.flt = false → s.cfg = false → exec .ksAdvance s = .next { s with
      flt := true, fcode := 0x03, response := s.response ++ [0x00000003] }) ∧
    (s.flt = false → s.cfg = true → exec .ksAdvance s = .next { s with
      ctr := BitVec.ofNat 32 ((s.ctr.toNat + 1) % 2 ^ 32)
      response := s.response ++ [0x00000000] })

/-- R192: `XOR_CHUNK` encodes as `0x0000_LL_08` with `1 ≤ L ≤ 64`, raises `NOT_CONFIGURED` without a session, and with one
returns all 64 bytes of the padded chunk xored with the block of the counter before the increment, and advances the counter in
the same step. -/
def Obligations.XorChunkCommandXorsAndAdvances : Prop :=
  (∀ cw : Word, cw.toNat % 256 = 8 →
    (legal cw = true ↔ ∃ len, 1 ≤ len ∧ len ≤ 64 ∧ cw = BitVec.ofNat 32 (8 + 2 ^ 8 * len))) ∧
  ∀ (len : Nat) (ws : List Word) (s : State), 1 ≤ len → len ≤ 64 → ws.length = (len + 3) / 4 →
    encode (.xorChunk len ws) = BitVec.ofNat 32 (8 + 2 ^ 8 * len) :: ws ∧
    (s.flt = true → exec (.xorChunk len ws) s = .next { s with
      response := s.response ++ [0#8 ++ s.fcode ++ 0x0004#16] }) ∧
    (s.flt = false → s.cfg = false → exec (.xorChunk len ws) s = .next { s with
      flt := true, fcode := 0x03, response := s.response ++ [0x00000003] }) ∧
    (s.flt = false → s.cfg = true → ∀ x, build s.sigma s.key.toList s.ctr s.nonce.toList = some x →
      exec (.xorChunk len ws) s = .next { s with
        ctr := s.ctr + 1
        response := s.response ++ 0x00001000 ::
          List.zipWith (· ^^^ ·) (padChunk len ws).toList (List.zipWith (· + ·) (run x).toList x.toList) })

/-- R47, the frame of every command: the side effects are exactly those listed. An error writes the latch and its code, `INIT`
the session and `STATUS.CFG`, `KS_ADVANCE` and `XOR_CHUNK` the counter, and nothing else is written. -/
def Obligations.CommandsWriteOnlyTheListedState : Prop :=
  ∀ (i : Instr) (s t : State), exec i s = .next t →
    t.sigma = s.sigma ∧ t.input = s.input ∧ t.emitted = s.emitted ∧
    ((∀ key nonce, i ≠ .init key nonce) →
      t.key = s.key ∧ t.nonce = s.nonce ∧ t.cfg = s.cfg ∧ (advances i = false → t.ctr = s.ctr)) ∧
    (s.flt = true → t.flt = true ∧ t.fcode = s.fcode) ∧
    ∃ w out, t.response = s.response ++ w :: out ∧
      (w.toNat % 256 = 0 → t.flt = s.flt ∧ t.fcode = s.fcode) ∧
      (w.toNat % 256 ≠ 0 →
        t.key = s.key ∧ t.nonce = s.nonce ∧ t.ctr = s.ctr ∧ t.cfg = s.cfg ∧
        (s.flt = false → t.flt = true ∧ t.fcode.toNat = w.toNat % 256))

/-- Derived from spec/30_encoding.md section 4 and spec/60_exceptions.md section 3: the diagnostic commands neither read nor write
the session. Their responses are the same whatever session the core holds, and the session afterwards is the one before. -/
def Obligations.DiagnosticCommandsDoNotTouchTheSession : Prop :=
  ∀ (i : Instr) (s : State), diagnostic i = true → ∀ (x : Session) (c : Bool),
    ∃ t u, exec i s = .next t ∧
      exec i { s with key := x.key, nonce := x.nonce, ctr := x.ctr, cfg := c } = .next u ∧
      t.response = u.response ∧ t.session = s.session ∧ (c = true → u.session = some x)

/-! Invariants -/

/-- Derived from spec/70_reset_and_hazards.md section 1: the status invariant holds at reset. -/
def Obligations.ResetStatusIsLegal : Prop := State.reset.statusLegal = true

/-- Derived from spec/10_state.md sections 3 and 6: every step keeps the status fields at legal values. The code is 0 while the
latch is clear, and that of one of the three errors while it is set, `NOT_CONFIGURED` only without a session. -/
def Obligations.EveryStepKeepsTheStatusLegal : Prop :=
  ∀ s t : State, s.statusLegal = true → step s = .next t → t.statusLegal = true

/-- R28: the packed `STATUS` word has `CFG` in bit 0, `FLT` in bit 1, `FCODE` in bits 15..8, and zeros elsewhere; the legal values
are the seven that R25 to R27 produce. -/
def Obligations.StatusWordHasTheSpecsLayout : Prop :=
  ∀ s : State, s.statusWord.toNat = s.cfg.toNat + 2 * s.flt.toNat + 2 ^ 8 * s.fcode.toNat ∧
    (s.statusLegal = true ↔ s.statusWord ∈
      ([0x00000000, 0x00000001, 0x00000102, 0x00000103, 0x00000202, 0x00000203, 0x00000302] : List Word))

/-- Derived from spec/10_state.md section 6: no step changes the constants; and a step that is no reset and no successful `INIT`
leaves the key, the nonce and `STATUS.CFG` and changes the counter, if at all, by +1. -/
def Obligations.OnlyInitAndResetReplaceTheSession : Prop :=
  ∀ s t : State, step s = .next t →
    t.sigma = s.sigma ∧
    (s.resets = false → s.startsSession = false →
      t.key = s.key ∧ t.nonce = s.nonce ∧ t.cfg = s.cfg ∧ (t.ctr = s.ctr ∨ t.ctr = s.ctr + 1))

/-- R25: a reset clears `STATUS.CFG`, a successful `INIT` sets it, and no other step changes it. -/
def Obligations.ConfiguredFlagFollowsInitAndReset : Prop :=
  ∀ s t : State, step s = .next t →
    t.cfg = (if s.resets then false else if s.startsSession then true else s.cfg)

/-- R26 and R27: every error response sets the fault latch and records the error's code; while it is set every step but a reset
keeps the latch, the code and the session, and every command gets `FAULTED` with that code as `CAUSE`; only reset clears it, and
then the code is 0, as it is whenever the latch is clear. -/
def Obligations.FaultLatchIsClearedOnlyByReset : Prop :=
  ∀ s t : State, step s = .next t →
    (s.resets = true → t.flt = false ∧ t.fcode = 0x00) ∧
    (s.resets = false → s.flt = true →
      t.flt = true ∧ t.fcode = s.fcode ∧ t.key = s.key ∧ t.nonce = s.nonce ∧ t.ctr = s.ctr ∧ t.cfg = s.cfg ∧
      (s.takesCommand = true → t.response = [0#8 ++ s.fcode ++ 0x0004#16])) ∧
    (s.resets = false → s.takesCommand = false → t.flt = s.flt ∧ t.fcode = s.fcode) ∧
    (s.takesCommand = true → s.flt = false →
      t.flt = !((t.response.headD 0).toNat % 256 == 0) ∧
      (t.flt = true → t.fcode.toNat = (t.response.headD 0).toNat % 256) ∧
      (t.flt = false → t.fcode = s.fcode)) ∧
    (s.statusLegal = true → t.flt = false → t.fcode = 0x00)

/-! Laws of sessions and streams -/

/-- Derived from spec/43_keystream_generator.md section 3, whose own inference this is: reading the block is idempotent. After any
commands that are not `INIT`, `KS_ADVANCE` or `XOR_CHUNK` and raise no error, `KS_CURRENT` gives the response it gave before. An
error between the two faults the core, so the second read gets `FAULTED` (log entry 9). -/
def Obligations.KeystreamReadIsIdempotent : Prop :=
  ∀ (s t : State) (between : List Instr), s.response = [] →
    (∀ i ∈ between, advances i = false ∧ ∀ key nonce, i ≠ .init key nonce) →
    runCommands (.ksCurrent :: between) s = .next t → t.flt = false →
    ∃ u v, exec .ksCurrent s = .next u ∧ exec .ksCurrent t = .next v ∧ v.response = u.response

/-- R169: after a successful `INIT` and any `m` commands that advance the session, the core is not faulted and the counter is `m`
modulo 2^32, so the session's `n`-th counter value is `(n - 1) mod 2^32`. -/
def Obligations.CounterCountsBlocksModuloTwoToThe32 : Prop :=
  ∀ (s : State) (key : Vector Word 8) (nonce : Vector Word 3) (cmds : List Instr),
    s.flt = false → (∀ i ∈ cmds, advances i = true) →
    ∃ t, runCommands (.init key.toList nonce.toList :: cmds) s = .next t ∧ t.flt = false ∧ t.cfg = true ∧
      t.key = key ∧ t.nonce = nonce ∧ t.fcode = s.fcode ∧ t.ctr = BitVec.ofNat 32 (cmds.length % 2 ^ 32)

/-- Derived from spec/43_keystream_generator.md section 3, whose own inference this is: two cores that receive the same key and
nonce and then the same sequence of `m` commands `KS_ADVANCE` and `XOR_CHUNK` hold equal counters throughout, and `KS_CURRENT`
returns the same block on both, that of the key, the nonce and the counter `m`. The cores have the same hardwired constants and
neither is faulted. -/
def Obligations.EqualSessionsRunInLockstep : Prop :=
  ∀ (s t : State) (key : Vector Word 8) (nonce : Vector Word 3) (cmds : List Instr),
    s.flt = false → t.flt = false → s.sigma = t.sigma → (∀ i ∈ cmds, advances i = true) →
    ∃ s' t' u v, runCommands (.init key.toList nonce.toList :: cmds) s = .next s' ∧
      runCommands (.init key.toList nonce.toList :: cmds) t = .next t' ∧ s'.ctr = t'.ctr ∧
      exec .ksCurrent s' = .next u ∧ exec .ksCurrent t' = .next v ∧ u.response = v.response ∧
      u.response = 0x00001000 :: (ksWords s.sigma ⟨key, nonce, BitVec.ofNat 32 cmds.length⟩).toList

/-- R194: on an unfaulted core `transform` completes and gives `ceil(n / 64) * 64` bytes. -/
def Obligations.TransformOutputIsAWholeNumberOfChunks : Prop :=
  ∀ (s : State) (key : Vector Word 8) (nonce : Vector Word 3) (input : List Byte), s.flt = false →
    ∃ output t, transform key nonce input s = some (output, t) ∧ output.length = (input.length + 63) / 64 * 64

/-- Derived from spec/44_stream_xor_cipher.md section 3: the input is cut into `ceil(n / 64)` chunks of 64 bytes, the last perhaps
shorter; chunk `t` comes out as its padded bytes xored with the block of counter `t mod 2^32`; the session then stands at the
number of chunks. An empty input gives an empty output. -/
def Obligations.TransformXorsEachChunkWithItsBlock : Prop :=
  ∀ (s : State) (key : Vector Word 8) (nonce : Vector Word 3) (input : List Byte), s.flt = false →
    (chunks input).length = (input.length + 63) / 64 ∧
    (∀ t c, (chunks input)[t]? = some c → c = (input.drop (64 * t)).take 64) ∧
    ∃ output t, transform key nonce input s = some (output, t) ∧
      output = ((chunks input).mapIdx fun n c =>
        List.zipWith (· ^^^ ·) (padBytes64 c) (ksBytes s.sigma ⟨key, nonce, BitVec.ofNat 32 n⟩)).flatten ∧
      t.session = some ⟨key, nonce, BitVec.ofNat 32 ((input.length + 63) / 64)⟩ ∧
      (input = [] → output = [])

/-- Derived from spec/44_stream_xor_cipher.md section 3, whose own inference this is: the transform of a transform, on any unfaulted
cores with the same constants, is the input padded with zero bytes to a multiple of 64. -/
def Obligations.TransformTwiceIsThePaddedInput : Prop :=
  ∀ (s s' : State) (key : Vector Word 8) (nonce : Vector Word 3) (input : List Byte),
    s.flt = false → s'.flt = false → s.sigma = s'.sigma →
    ∃ output t t', transform key nonce input s = some (output, t) ∧
      transform key nonce output s' = some (padStream input, t')

/-- Derived from spec/30_encoding.md section 5 and spec/44_stream_xor_cipher.md section 3: the host's acts for a `TRANSFORM` line are
those for its `INIT` and `XOR_CHUNK` lines, and a core with which the host does just them goes, two steps a command, to the
state in which `transform` leaves it. Choices of the model: that lines are data, and that their host accepts every response (log
entry 10); that a command and the acceptance of its response are a step each (log entries 3 and 4); and, on a core that is faulted at
the start, that `transform` goes on after an error response and sends every chunk (log entry 12). -/
def Obligations.TransformLineRunsAsTheHostProtocol : Prop :=
  ∀ (s : State) (key : Vector Word 8) (nonce : Vector Word 3) (input : List Byte),
    (Line.transform key nonce input).events =
      assemble (.command (.init key.toList nonce.toList) :: (chunks input).map fun c => .command (chunkCommand c)) ∧
    (s.input = [] → s.response = [] → ∃ output t, transform key nonce input s = some (output, t) ∧
      core.run (2 * (1 + (chunks input).length)) { s with input := (Line.transform key nonce input).events } = .next t)
end

