-- ==== Sys2Proof/Laws/Words.lean ====
section
/-! SUPPORT. The fields of command, response and status words as numbers, and the bytes of a word: with these lemmas a fact
about fields is linear arithmetic. -/

namespace Sys2Proof

/-- Concatenation as a number. -/
theorem append_toNat {n m : Nat} (x : BitVec n) (y : BitVec m) : (x ++ y).toNat = 2 ^ m * x.toNat + y.toNat := by
  rw [BitVec.toNat_append, ← Nat.shiftLeft_add_eq_or_of_lt y.isLt, Nat.shiftLeft_eq, Nat.mul_comm]

/-- A field of a word as a number. -/
theorem field_toNat (w : Word) (lo len : Nat) : (w.extractLsb' lo len).toNat = w.toNat / 2 ^ lo % 2 ^ len := by
  rw [BitVec.extractLsb'_toNat, Nat.shiftRight_eq_div_pow]

/-- A command word as a number (R61). -/
theorem cmdWord_toNat (b a op : Byte) : (cmdWord b a op).toNat = op.toNat + 2 ^ 8 * a.toNat + 2 ^ 16 * b.toNat := by
  simp only [cmdWord, append_toNat, BitVec.toNat_ofNat]
  omega

theorem opField_toNat (cw : Word) : (opField cw).toNat = cw.toNat % 256 := by
  simp only [opField, field_toNat]
  omega

theorem aField_toNat (cw : Word) : (aField cw).toNat = cw.toNat / 256 % 256 := by
  simp only [aField, field_toNat]
  omega

theorem bField_toNat (cw : Word) : (bField cw).toNat = cw.toNat / 65536 % 256 := by
  simp only [bField, field_toNat]
  omega

theorem rsvField_toNat (cw : Word) : (rsvField cw).toNat = cw.toNat / 2 ^ 24 := by
  have := cw.isLt
  simp only [rsvField, field_toNat]
  omega

@[simp] theorem opField_cmdWord (b a op : Byte) : opField (cmdWord b a op) = op := by
  apply BitVec.eq_of_toNat_eq
  have := a.isLt; have := b.isLt; have := op.isLt
  rw [opField_toNat, cmdWord_toNat]; omega

@[simp] theorem aField_cmdWord (b a op : Byte) : aField (cmdWord b a op) = a := by
  apply BitVec.eq_of_toNat_eq
  have := a.isLt; have := b.isLt; have := op.isLt
  rw [aField_toNat, cmdWord_toNat]; omega

@[simp] theorem bField_cmdWord (b a op : Byte) : bField (cmdWord b a op) = b := by
  apply BitVec.eq_of_toNat_eq
  have := a.isLt; have := b.isLt; have := op.isLt
  rw [bField_toNat, cmdWord_toNat]; omega

@[simp] theorem rsvField_cmdWord (b a op : Byte) : rsvField (cmdWord b a op) = 0#8 := by
  apply BitVec.eq_of_toNat_eq
  have := a.isLt; have := b.isLt; have := op.isLt
  rw [rsvField_toNat, cmdWord_toNat]; change _ = 0; omega

/-- A command word is its four fields (R61). -/
theorem cmdWord_fields (cw : Word) (h : rsvField cw = 0#8) : cmdWord (bField cw) (aField cw) (opField cw) = cw := by
  apply BitVec.eq_of_toNat_eq
  have hr := congrArg BitVec.toNat h
  rw [rsvField_toNat] at hr
  change _ = 0 at hr
  rw [cmdWord_toNat, opField_toNat, aField_toNat, bField_toNat]; omega

namespace Machine

/-- A response word as a number (R65). -/
theorem responseWord_toNat (cause nout status : Byte) :
    (responseWord cause nout status).toNat = status.toNat + 2 ^ 8 * nout.toNat + 2 ^ 16 * cause.toNat := by
  simp only [responseWord, append_toNat, BitVec.toNat_ofNat]
  omega

/-- A word made of four bytes, as a number (R42). -/
theorem le32Word_toNat (b0 b1 b2 b3 : Byte) :
    (le32Word b0 b1 b2 b3).toNat = b0.toNat + 2 ^ 8 * b1.toNat + 2 ^ 16 * b2.toNat + 2 ^ 24 * b3.toNat := by
  simp only [le32Word, append_toNat]
  omega

@[simp] theorem le32Bytes_length (w : Word) : (le32Bytes w).length = 4 := rfl

@[simp] theorem unpackWords_nil : unpackWords [] = [] := rfl

@[simp] theorem unpackWords_cons (w : Word) (ws : List Word) : unpackWords (w :: ws) = le32Bytes w ++ unpackWords ws := by
  simp [unpackWords]

@[simp] theorem unpackWords_length (ws : List Word) : (unpackWords ws).length = 4 * ws.length := by
  induction ws with
  | nil => rfl
  | cons w ws ih => simp [ih]; omega

end Machine

end Sys2Proof
end

