-- ==== Sys2Proof/Laws/Decode.lean ====
section
/-! SUPPORT. What taking payload words and decoding answer. -/

namespace Sys2Proof

@[simp] theorem takeWord_cons (w : Word) (ws : List Word) : takeWord (w :: ws) = some (w, ws) := rfl

/-- `In(n)` takes a payload of that length and leaves the words after it. -/
@[simp] theorem takeWords_append {n : Nat} (ps ws : List Word) (h : ps.length = n) : takeWords n (ps ++ ws) = some (ps, ws) := by
  subst h; simp [takeWords]

/-- What `takeWords` answers says which words it took. -/
theorem takeWords_eq_some {n : Nat} {ws ps rest : List Word} (h : takeWords n ws = some (ps, rest)) :
    ps.length = n ∧ ws = ps ++ rest := by
  unfold takeWords at h
  split at h
  · rename_i hn
    obtain ⟨rfl, rfl⟩ := by simpa using h
    exact ⟨by simp [hn], by simp⟩
  · cases h

theorem takeWords_isNone {n : Nat} {ws : List Word} : takeWords n ws = none ↔ ws.length < n := by
  simp [takeWords]

theorem takeWord_eq_some {ws rest : List Word} {w : Word} (h : takeWord ws = some (w, rest)) : ws = w :: rest := by
  cases ws with
  | nil => cases h
  | cons v vs =>
    obtain ⟨rfl, rfl⟩ := by simpa [takeWord] using h
    rfl

@[simp] theorem takeVec_append {n : Nat} (x : Vector Word n) (ws : List Word) :
    takeVec n (x.toList ++ ws) = some (x, ws) := by
  have h : n ≤ (x.toList ++ ws).length := by simp
  simp only [takeVec, dif_pos h, Option.some.injEq, Prod.mk.injEq]
  refine ⟨?_, by simp⟩
  apply Vector.toList_inj.1
  simp [Vector.toList]

theorem takeVec_eq_some {n : Nat} {ws rest : List Word} {x : Vector Word n} (h : takeVec n ws = some (x, rest)) :
    ws = x.toList ++ rest := by
  unfold takeVec at h
  split at h
  · simp only [Option.some.injEq, Prod.mk.injEq] at h
    obtain ⟨rfl, rfl⟩ := h
    simp [Vector.toList]
  · cases h

theorem takeVec_isNone {n : Nat} {ws : List Word} : takeVec n ws = none ↔ ws.length < n := by
  simp [takeVec]

/-- The decoder on a legal command word answers by its operands. -/
theorem decode_legal {cw : Word} {ws : List Word} (h : whyIllegal cw = none) :
    decode (cw :: ws) = match operands cw ws with | some r => .command r.1 r.2 | none => .awaitingPayload := by
  simp only [decode, h]
  cases operands cw ws <;> rfl

/-- The decoder on an illegal command word takes that word only. -/
theorem decode_illegal {cw : Word} {ws : List Word} {r : IllegalReason} (h : whyIllegal cw = some r) :
    decode (cw :: ws) = .illegal r ws := by
  simp only [decode, h]

/-- The decoder rejects exactly the words that are not legal (R64). -/
theorem whyIllegal_eq_none (cw : Word) : whyIllegal cw = none ↔ legal cw = true := by
  have h24 : (cw.extractLsb' 24 8) = rsvField cw := rfl
  have h16 : (cw.extractLsb' 16 8) = bField cw := rfl
  have h8 : (cw.extractLsb' 8 16 == 0#16) = (decide (aField cw = 0#8) && decide (bField cw = 0#8)) := by
    rw [Bool.eq_iff_iff]
    simp only [beq_iff_eq, Bool.and_eq_true, decide_eq_true_eq, ← BitVec.toNat_inj, aField_toNat, bField_toNat, field_toNat]
    change _ = 0 ↔ _ = 0 ∧ _ = 0
    omega
  have ha1 : (aField cw = 1#8) ↔ (aField cw).toNat = 1 := by rw [← BitVec.toNat_inj]; rfl
  have ha0 : (aField cw = 0#8) ↔ (aField cw).toNat = 0 := by rw [← BitVec.toNat_inj]; rfl
  unfold whyIllegal legal
  rw [h24, h16, h8]
  by_cases hr : rsvField cw = 0#8
  · simp only [hr, BEq.rfl, Bool.true_and, ne_eq, not_true_eq_false, ↓reduceIte]
    split <;> simp_all <;> (try split) <;> simp_all <;> omega
  · simp [hr]

end Sys2Proof
end

