-- ==== Sys2Proof/Laws/State.lean ====
section
/-! SUPPORT. One lemma per field of `State` and operation that updates the state: what the operation leaves in that field. -/

namespace Sys2Proof.Machine

open Sys2Proof

@[simp] theorem respond_key (st : Status) (out : List Word) (s : State) : (respond st out s).key = s.key := rfl
@[simp] theorem respond_nonce (st : Status) (out : List Word) (s : State) : (respond st out s).nonce = s.nonce := rfl
@[simp] theorem respond_ctr (st : Status) (out : List Word) (s : State) : (respond st out s).ctr = s.ctr := rfl
@[simp] theorem respond_sigma (st : Status) (out : List Word) (s : State) : (respond st out s).sigma = s.sigma := rfl
@[simp] theorem respond_cfg (st : Status) (out : List Word) (s : State) : (respond st out s).cfg = s.cfg := rfl
@[simp] theorem respond_flt (st : Status) (out : List Word) (s : State) : (respond st out s).flt = s.flt := rfl
@[simp] theorem respond_fcode (st : Status) (out : List Word) (s : State) : (respond st out s).fcode = s.fcode := rfl
@[simp] theorem respond_input (st : Status) (out : List Word) (s : State) : (respond st out s).input = s.input := rfl
@[simp] theorem respond_response (st : Status) (out : List Word) (s : State) :
    (respond st out s).response = s.response ++ responseWord (causeField st s.fcode) (BitVec.ofNat 8 out.length) st.code :: out := rfl
@[simp] theorem respond_emitted (st : Status) (out : List Word) (s : State) : (respond st out s).emitted = s.emitted := rfl

@[simp] theorem raise_key (e : Err) (s : State) : (raise e s).key = s.key := rfl
@[simp] theorem raise_nonce (e : Err) (s : State) : (raise e s).nonce = s.nonce := rfl
@[simp] theorem raise_ctr (e : Err) (s : State) : (raise e s).ctr = s.ctr := rfl
@[simp] theorem raise_sigma (e : Err) (s : State) : (raise e s).sigma = s.sigma := rfl
@[simp] theorem raise_cfg (e : Err) (s : State) : (raise e s).cfg = s.cfg := rfl
@[simp] theorem raise_flt (e : Err) (s : State) : (raise e s).flt = true := rfl
@[simp] theorem raise_fcode (e : Err) (s : State) : (raise e s).fcode = e.code := rfl
@[simp] theorem raise_input (e : Err) (s : State) : (raise e s).input = s.input := rfl
@[simp] theorem raise_response (e : Err) (s : State) :
    (raise e s).response = s.response ++ [responseWord 0x00 0x00 e.code] := rfl
@[simp] theorem raise_emitted (e : Err) (s : State) : (raise e s).emitted = s.emitted := rfl

@[simp] theorem refuseFaulted_key (s : State) : (refuseFaulted s).key = s.key := rfl
@[simp] theorem refuseFaulted_nonce (s : State) : (refuseFaulted s).nonce = s.nonce := rfl
@[simp] theorem refuseFaulted_ctr (s : State) : (refuseFaulted s).ctr = s.ctr := rfl
@[simp] theorem refuseFaulted_sigma (s : State) : (refuseFaulted s).sigma = s.sigma := rfl
@[simp] theorem refuseFaulted_cfg (s : State) : (refuseFaulted s).cfg = s.cfg := rfl
@[simp] theorem refuseFaulted_flt (s : State) : (refuseFaulted s).flt = s.flt := rfl
@[simp] theorem refuseFaulted_fcode (s : State) : (refuseFaulted s).fcode = s.fcode := rfl
@[simp] theorem refuseFaulted_input (s : State) : (refuseFaulted s).input = s.input := rfl
@[simp] theorem refuseFaulted_response (s : State) :
    (refuseFaulted s).response = s.response ++ [responseWord s.fcode 0x00 0x04] := rfl
@[simp] theorem refuseFaulted_emitted (s : State) : (refuseFaulted s).emitted = s.emitted := rfl

@[simp] theorem startSession_key (k : Vector Word 8) (n : Vector Word 3) (s : State) : (startSession k n s).key = k := rfl
@[simp] theorem startSession_nonce (k : Vector Word 8) (n : Vector Word 3) (s : State) : (startSession k n s).nonce = n := rfl
@[simp] theorem startSession_ctr (k : Vector Word 8) (n : Vector Word 3) (s : State) : (startSession k n s).ctr = 0 := rfl
@[simp] theorem startSession_sigma (k : Vector Word 8) (n : Vector Word 3) (s : State) : (startSession k n s).sigma = s.sigma := rfl
@[simp] theorem startSession_cfg (k : Vector Word 8) (n : Vector Word 3) (s : State) : (startSession k n s).cfg = true := rfl
@[simp] theorem startSession_flt (k : Vector Word 8) (n : Vector Word 3) (s : State) : (startSession k n s).flt = s.flt := rfl
@[simp] theorem startSession_fcode (k : Vector Word 8) (n : Vector Word 3) (s : State) : (startSession k n s).fcode = s.fcode := rfl
@[simp] theorem startSession_input (k : Vector Word 8) (n : Vector Word 3) (s : State) : (startSession k n s).input = s.input := rfl
@[simp] theorem startSession_response (k : Vector Word 8) (n : Vector Word 3) (s : State) : (startSession k n s).response = s.response := rfl
@[simp] theorem startSession_emitted (k : Vector Word 8) (n : Vector Word 3) (s : State) : (startSession k n s).emitted = s.emitted := rfl

@[simp] theorem advanceCounter_key (s : State) : (advanceCounter s).key = s.key := rfl
@[simp] theorem advanceCounter_nonce (s : State) : (advanceCounter s).nonce = s.nonce := rfl
@[simp] theorem advanceCounter_ctr (s : State) : (advanceCounter s).ctr = s.ctr + 1 := rfl
@[simp] theorem advanceCounter_sigma (s : State) : (advanceCounter s).sigma = s.sigma := rfl
@[simp] theorem advanceCounter_cfg (s : State) : (advanceCounter s).cfg = s.cfg := rfl
@[simp] theorem advanceCounter_flt (s : State) : (advanceCounter s).flt = s.flt := rfl
@[simp] theorem advanceCounter_fcode (s : State) : (advanceCounter s).fcode = s.fcode := rfl
@[simp] theorem advanceCounter_input (s : State) : (advanceCounter s).input = s.input := rfl
@[simp] theorem advanceCounter_response (s : State) : (advanceCounter s).response = s.response := rfl
@[simp] theorem advanceCounter_emitted (s : State) : (advanceCounter s).emitted = s.emitted := rfl

@[simp] theorem assertReset_key (s : State) : (assertReset s).key = Config.resetKey := rfl
@[simp] theorem assertReset_nonce (s : State) : (assertReset s).nonce = Config.resetNonce := rfl
@[simp] theorem assertReset_ctr (s : State) : (assertReset s).ctr = Config.resetCtr := rfl
@[simp] theorem assertReset_sigma (s : State) : (assertReset s).sigma = s.sigma := rfl
@[simp] theorem assertReset_cfg (s : State) : (assertReset s).cfg = false := rfl
@[simp] theorem assertReset_flt (s : State) : (assertReset s).flt = false := rfl
@[simp] theorem assertReset_fcode (s : State) : (assertReset s).fcode = 0x00 := rfl
@[simp] theorem assertReset_input (s : State) : (assertReset s).input = s.input := rfl
@[simp] theorem assertReset_response (s : State) : (assertReset s).response = [] := rfl
@[simp] theorem assertReset_emitted (s : State) : (assertReset s).emitted = s.emitted := rfl
@[simp] theorem assertReset_session (s : State) : (assertReset s).session = none := rfl

@[simp] theorem acceptWords_key (n : Nat) (s : State) : (acceptWords n s).key = s.key := rfl
@[simp] theorem acceptWords_nonce (n : Nat) (s : State) : (acceptWords n s).nonce = s.nonce := rfl
@[simp] theorem acceptWords_ctr (n : Nat) (s : State) : (acceptWords n s).ctr = s.ctr := rfl
@[simp] theorem acceptWords_sigma (n : Nat) (s : State) : (acceptWords n s).sigma = s.sigma := rfl
@[simp] theorem acceptWords_cfg (n : Nat) (s : State) : (acceptWords n s).cfg = s.cfg := rfl
@[simp] theorem acceptWords_flt (n : Nat) (s : State) : (acceptWords n s).flt = s.flt := rfl
@[simp] theorem acceptWords_fcode (n : Nat) (s : State) : (acceptWords n s).fcode = s.fcode := rfl
@[simp] theorem acceptWords_input (n : Nat) (s : State) : (acceptWords n s).input = s.input := rfl
@[simp] theorem acceptWords_session (n : Nat) (s : State) : (acceptWords n s).session = s.session := rfl
@[simp] theorem acceptWords_response (n : Nat) (s : State) : (acceptWords n s).response = s.response.drop n := rfl
@[simp] theorem acceptWords_emitted (n : Nat) (s : State) :
    (acceptWords n s).emitted = s.emitted ++ s.response.take n := rfl

@[simp] theorem acceptResponse_key (s : State) : (acceptResponse s).key = s.key := rfl
@[simp] theorem acceptResponse_nonce (s : State) : (acceptResponse s).nonce = s.nonce := rfl
@[simp] theorem acceptResponse_ctr (s : State) : (acceptResponse s).ctr = s.ctr := rfl
@[simp] theorem acceptResponse_sigma (s : State) : (acceptResponse s).sigma = s.sigma := rfl
@[simp] theorem acceptResponse_cfg (s : State) : (acceptResponse s).cfg = s.cfg := rfl
@[simp] theorem acceptResponse_flt (s : State) : (acceptResponse s).flt = s.flt := rfl
@[simp] theorem acceptResponse_fcode (s : State) : (acceptResponse s).fcode = s.fcode := rfl
@[simp] theorem acceptResponse_input (s : State) : (acceptResponse s).input = s.input := rfl
@[simp] theorem acceptResponse_session (s : State) : (acceptResponse s).session = s.session := rfl
@[simp] theorem acceptResponse_response (s : State) : (acceptResponse s).response = [] := by simp [acceptResponse]
@[simp] theorem acceptResponse_emitted (s : State) : (acceptResponse s).emitted = s.emitted ++ s.response := by
  simp [acceptResponse]

@[simp] theorem sendWords_key (ws : List Word) (s : State) : (s.sendWords ws).key = s.key := rfl
@[simp] theorem sendWords_nonce (ws : List Word) (s : State) : (s.sendWords ws).nonce = s.nonce := rfl
@[simp] theorem sendWords_ctr (ws : List Word) (s : State) : (s.sendWords ws).ctr = s.ctr := rfl
@[simp] theorem sendWords_sigma (ws : List Word) (s : State) : (s.sendWords ws).sigma = s.sigma := rfl
@[simp] theorem sendWords_cfg (ws : List Word) (s : State) : (s.sendWords ws).cfg = s.cfg := rfl
@[simp] theorem sendWords_flt (ws : List Word) (s : State) : (s.sendWords ws).flt = s.flt := rfl
@[simp] theorem sendWords_fcode (ws : List Word) (s : State) : (s.sendWords ws).fcode = s.fcode := rfl
@[simp] theorem sendWords_input (ws : List Word) (s : State) : (s.sendWords ws).input = asInput ws ++ s.input := rfl
@[simp] theorem sendWords_response (ws : List Word) (s : State) : (s.sendWords ws).response = s.response := rfl
@[simp] theorem sendWords_emitted (ws : List Word) (s : State) : (s.sendWords ws).emitted = s.emitted := rfl

@[simp] theorem resetWith_key (sigma : Vector Word 4) : (State.resetWith sigma).key = Config.resetKey := rfl
@[simp] theorem resetWith_nonce (sigma : Vector Word 4) : (State.resetWith sigma).nonce = Config.resetNonce := rfl
@[simp] theorem resetWith_ctr (sigma : Vector Word 4) : (State.resetWith sigma).ctr = Config.resetCtr := rfl
@[simp] theorem resetWith_sigma (sigma : Vector Word 4) : (State.resetWith sigma).sigma = sigma := rfl
@[simp] theorem resetWith_cfg (sigma : Vector Word 4) : (State.resetWith sigma).cfg = false := rfl
@[simp] theorem resetWith_flt (sigma : Vector Word 4) : (State.resetWith sigma).flt = false := rfl
@[simp] theorem resetWith_fcode (sigma : Vector Word 4) : (State.resetWith sigma).fcode = 0x00 := rfl
@[simp] theorem resetWith_input (sigma : Vector Word 4) : (State.resetWith sigma).input = [] := rfl
@[simp] theorem resetWith_response (sigma : Vector Word 4) : (State.resetWith sigma).response = [] := rfl
@[simp] theorem resetWith_emitted (sigma : Vector Word 4) : (State.resetWith sigma).emitted = [] := rfl

@[simp] theorem respond_session (st : Status) (out : List Word) (s : State) : (respond st out s).session = s.session := rfl
@[simp] theorem raise_session (e : Err) (s : State) : (raise e s).session = s.session := rfl
@[simp] theorem refuseFaulted_session (s : State) : (refuseFaulted s).session = s.session := rfl
@[simp] theorem startSession_session (k : Vector Word 8) (n : Vector Word 3) (s : State) :
    (startSession k n s).session = some ⟨k, n, 0⟩ := rfl

end Sys2Proof.Machine
end

