-- ==== Sys2Proof/Laws/Ops.lean ====
section
/-! SUPPORT. What the shared operations and the commands' meanings can do, said once. -/

namespace Sys2Proof.Machine

open Sys2Proof

theorem unlessFaulted_faulted {s body : State} (h : s.flt = true) : unlessFaulted s body = refuseFaulted s := by
  simp [unlessFaulted, h]

theorem unlessFaulted_ok {s body : State} (h : s.flt = false) : unlessFaulted s body = body := by
  simp [unlessFaulted, h]

theorem session_none {s : State} (h : s.cfg = false) : s.session = none := by
  simp [State.session, h]

theorem session_some {s : State} (h : s.cfg = true) : s.session = some ⟨s.key, s.nonce, s.ctr⟩ := by
  simp [State.session, h]

theorem requireSession_none {s : State} {body : Session → State} (h : s.cfg = false) :
    requireSession s body = raise .notConfigured s := by
  simp [requireSession, session_none h]

theorem requireSession_some {s : State} {body : Session → State} (h : s.cfg = true) :
    requireSession s body = body ⟨s.key, s.nonce, s.ctr⟩ := by
  simp [requireSession, session_some h]

/-- A vector's words have its shape (R102). -/
@[simp] theorem shaped_toList {n : Nat} (x : Vector Word n) : shaped n x.toList = some x := by
  have h : x.toList.length = n := by simp
  simp only [shaped, dif_pos h, Option.some.injEq]
  apply Vector.toList_inj.1
  simp [Vector.toList]

/-- Any other count is a shape error (R102). -/
theorem shaped_eq_none {n : Nat} {ws : List Word} : shaped n ws = none ↔ ws.length ≠ n := by
  simp [shaped]

theorem shaped_eq_some {n : Nat} {ws : List Word} {x : Vector Word n} (h : shaped n ws = some x) : ws = x.toList := by
  unfold shaped at h
  split at h
  · simp only [Option.some.injEq] at h
    subst h
    simp [Vector.toList]
  · cases h

/-- The only ways a command can go: refused by a faulted core; an error raised; or completed with a payload, the session
replaced by `INIT`, advanced by `KS_ADVANCE` and `XOR_CHUNK`, or left alone. -/
theorem exec_cases (i : Instr) (s : State) :
    (s.flt = true ∧ exec i s = .next (refuseFaulted s)) ∨
    (s.flt = false ∧ ∃ e, exec i s = .next (raise e s)) ∨
    (s.flt = false ∧ ∃ key nonce k n, i = .init key nonce ∧ key = Vector.toList k ∧ nonce = Vector.toList n ∧
      exec i s = .next (respond .ok [] (startSession k n s))) ∨
    (s.flt = false ∧ s.cfg = true ∧ (i = .ksAdvance ∨ ∃ len chunk, i = .xorChunk len chunk) ∧
      ∃ out, exec i s = .next (respond .ok out (advanceCounter s))) ∨
    (s.flt = false ∧ (i = .ksCurrent ∨ (∃ k c n, i = .build k c n) ∨ (∃ a b c d, i = .qround a b c d) ∨
      (∃ p x, i = .round p x) ∨ ∃ x, i = .blockfn x) ∧ ∃ out, exec i s = .next (respond .ok out s)) := by
  cases hf : s.flt with
  | true => left; cases i <;> exact ⟨rfl, congrArg _ (unlessFaulted_faulted hf)⟩
  | false =>
    right
    cases i with
    | build key ctr nonce =>
      simp only [exec, execBuild, unlessFaulted_ok hf]
      cases build s.sigma key ctr nonce with
      | none => exact .inl ⟨trivial, _, rfl⟩
      | some x => exact .inr (.inr (.inr ⟨trivial, .inr (.inl ⟨_, _, _, rfl⟩), _, rfl⟩))
    | qround a b c d =>
      simp only [exec, execQround, unlessFaulted_ok hf]
      exact .inr (.inr (.inr ⟨trivial, .inr (.inr (.inl ⟨_, _, _, _, rfl⟩)), _, rfl⟩))
    | round p x =>
      simp only [exec, execRound, unlessFaulted_ok hf]
      exact .inr (.inr (.inr ⟨trivial, .inr (.inr (.inr (.inl ⟨_, _, rfl⟩))), _, rfl⟩))
    | blockfn x =>
      simp only [exec, execBlockfn, unlessFaulted_ok hf]
      exact .inr (.inr (.inr ⟨trivial, .inr (.inr (.inr (.inr ⟨_, rfl⟩))), _, rfl⟩))
    | init key nonce =>
      simp only [exec, execInit, unlessFaulted_ok hf]
      cases hk : shaped Config.keyWords key with
      | none => exact .inl ⟨trivial, _, rfl⟩
      | some k =>
        cases hn : shaped Config.nonceWords nonce with
        | none => exact .inl ⟨trivial, _, rfl⟩
        | some n => exact .inr (.inl ⟨trivial, _, _, k, n, rfl, shaped_eq_some hk, shaped_eq_some hn, rfl⟩)
    | ksCurrent =>
      simp only [exec, execKsCurrent, unlessFaulted_ok hf]
      cases hc : s.cfg with
      | false => exact .inl ⟨trivial, _, congrArg _ (requireSession_none hc)⟩
      | true => exact .inr (.inr (.inr ⟨trivial, .inl trivial, _, congrArg _ (requireSession_some hc)⟩))
    | ksAdvance =>
      simp only [exec, execKsAdvance, unlessFaulted_ok hf]
      cases hc : s.cfg with
      | false => exact .inl ⟨trivial, _, congrArg _ (requireSession_none hc)⟩
      | true => exact .inr (.inr (.inl ⟨trivial, rfl, .inl trivial, _, congrArg _ (requireSession_some hc)⟩))
    | xorChunk len chunk =>
      simp only [exec, execXorChunk, unlessFaulted_ok hf]
      cases hc : s.cfg with
      | false => exact .inl ⟨trivial, _, congrArg _ (requireSession_none hc)⟩
      | true => exact .inr (.inr (.inl ⟨trivial, rfl, .inr ⟨_, _, rfl⟩, _, congrArg _ (requireSession_some hc)⟩))

/-- Every command answers a next state and leaves the host's input. -/
theorem exec_next (i : Instr) (s : State) : ∃ t, exec i s = .next t ∧ t.input = s.input := by
  rcases exec_cases i s with ⟨_, h⟩ | ⟨_, e, h⟩ | ⟨_, _, _, _, _, _, _, _, h⟩ | ⟨_, _, _, _, h⟩ | ⟨_, _, _, h⟩ <;>
    exact ⟨_, h, rfl⟩

/-- A command neither reads nor writes the host's input. -/
theorem exec_input {i : Instr} {s t : State} (x : List PortEvent) (h : exec i s = .next t) :
    exec i { s with input := x } = .next { t with input := x } := by
  obtain ⟨k, n, c, sg, cf, fl, fc, inp, r, e⟩ := s
  cases fl with
  | true => cases i <;> (cases h; rfl)
  | false =>
    cases i with
    | build key ctr nonce =>
      simp only [exec, execBuild, unlessFaulted] at h ⊢
      generalize build sg key ctr nonce = o at *
      cases o <;> (cases h; rfl)
    | init key nonce =>
      simp only [exec, execInit, unlessFaulted] at h ⊢
      generalize shaped Config.keyWords key = o at *
      generalize shaped Config.nonceWords nonce = o' at *
      cases o <;> cases o' <;> (cases h; rfl)
    | qround | round | blockfn => cases h; rfl
    | ksCurrent | ksAdvance | xorChunk => cases cf <;> (cases h; rfl)

end Sys2Proof.Machine
end

