-- ==== Sys2Proof/Laws/PerInstr.lean ====
section
/-! SUPPORT. Families of statements about every command as syntax, one lemma per constructor of `Instr`. -/

/-- The word the encoder writes for a well-formed command is legal (R64), and the encoder writes as many payload words after it as
R63 asks for. -/
def Sys2Proof.Laws.EncodedLegal.Statement (i : Sys2Proof.Instr) : Prop :=
  i.wellFormed = true → Sys2Proof.legal (Sys2Proof.commandWord i) = true ∧
    (Sys2Proof.payload i).length = Sys2Proof.payloadLength (Sys2Proof.commandWord i)

namespace Sys2Proof.Laws

open Sys2Proof

/-- `legal` in terms of the fields (R64). -/
theorem legal_cmdWord (b a op : Byte) :
    legal (cmdWord b a op) = match op.toNat with
      | 1 => true
      | 2 => a == 0#8 && b == 0#8
      | 3 => b == 0#8 && (a == 0#8 || a == 1#8)
      | 4 => a == 0#8 && b == 0#8
      | 5 => true
      | 6 => a == 0#8 && b == 0#8
      | 7 => a == 0#8 && b == 0#8
      | 8 => b == 0#8 && decide (1 ≤ a.toNat ∧ a.toNat ≤ 64)
      | _ => false := by
  have hr : (cmdWord b a op).extractLsb' 24 8 = 0#8 := rsvField_cmdWord b a op
  have hb : (cmdWord b a op).extractLsb' 16 8 = b := bField_cmdWord b a op
  have hab : ((cmdWord b a op).extractLsb' 8 16 == 0#16) = (a == 0#8 && b == 0#8) := by
    rw [Bool.eq_iff_iff]
    have := a.isLt; have := b.isLt; have := op.isLt
    simp only [beq_iff_eq, Bool.and_eq_true, ← BitVec.toNat_inj, field_toNat, cmdWord_toNat]
    change _ = 0 ↔ _ = 0 ∧ _ = 0
    omega
  simp only [legal, hr, hb, hab, opField_cmdWord, aField_cmdWord]
  rfl

theorem EncodedLegal.build (key : List Word) (ctr : Word) (nonce : List Word) :
    EncodedLegal.Statement (.build key ctr nonce) := by
  intro h
  simp only [Instr.wellFormed, Bool.and_eq_true, decide_eq_true_eq] at h
  have hl := legal_cmdWord (BitVec.ofNat 8 nonce.length) (BitVec.ofNat 8 key.length) 0x01#8
  refine ⟨hl, ?_⟩
  simp only [commandWord, payloadLength, hl, opField_cmdWord, aField_cmdWord, bField_cmdWord]
  simp [payload]; omega

theorem EncodedLegal.qround (a b c d : Word) : EncodedLegal.Statement (.qround a b c d) := fun _ => by
  simp only [commandWord]; exact ⟨by decide, by rw [show payloadLength (cmdWord 0#8 0#8 2#8) = 4 by decide]; rfl⟩

theorem EncodedLegal.round (p : RoundPattern) (x : Block) : EncodedLegal.Statement (.round p x) := fun _ => by
  cases p <;> simp only [commandWord, payload, Vector.length_toList] <;> decide

theorem EncodedLegal.blockfn (x : Block) : EncodedLegal.Statement (.blockfn x) := fun _ => by
  simp only [commandWord, payload, Vector.length_toList]; decide

theorem EncodedLegal.init (key nonce : List Word) : EncodedLegal.Statement (.init key nonce) := by
  intro h
  simp only [Instr.wellFormed, Bool.and_eq_true, decide_eq_true_eq] at h
  have hl := legal_cmdWord (BitVec.ofNat 8 nonce.length) (BitVec.ofNat 8 key.length) 0x05#8
  refine ⟨hl, ?_⟩
  simp only [commandWord, payloadLength, hl, opField_cmdWord, aField_cmdWord, bField_cmdWord]
  simp [payload]; omega

theorem EncodedLegal.ksCurrent : EncodedLegal.Statement .ksCurrent := fun _ => by decide

theorem EncodedLegal.ksAdvance : EncodedLegal.Statement .ksAdvance := fun _ => by decide

theorem EncodedLegal.xorChunk (len : Nat) (chunk : List Word) : EncodedLegal.Statement (.xorChunk len chunk) := by
  intro h
  simp only [Instr.wellFormed, Bool.and_eq_true, decide_eq_true_eq, beq_iff_eq] at h
  have ha : (BitVec.ofNat 8 len).toNat = len := by simp; omega
  have hl := legal_cmdWord 0#8 (BitVec.ofNat 8 len) 0x08#8
  have hl' : legal (cmdWord 0#8 (BitVec.ofNat 8 len) 0x08#8) = true := by
    rw [hl]
    change (true && decide _) = true
    simp [ha, h.1]
  refine ⟨hl', ?_⟩
  simp only [commandWord, payloadLength, hl', opField_cmdWord, aField_cmdWord, payload, ha, h.2]
  rfl

end Sys2Proof.Laws
end

