-- ==== Sys2Proof/Laws/Step.lean ====
section
/-! SUPPORT. What the port lets happen and what a step can do, said once. -/

namespace Sys2Proof.Machine

open Sys2Proof

/-! The host's acts -/

@[simp] theorem asInput_nil : asInput [] = [] := rfl

@[simp] theorem asInput_cons (w : Word) (ws : List Word) : asInput (w :: ws) = .word w :: asInput ws := rfl

theorem asInput_append (ws vs : List Word) : asInput (ws ++ vs) = asInput ws ++ asInput vs := by
  simp [asInput]

/-- Words sent are no resets. -/
@[simp] theorem reset_not_mem_asInput (ws : List Word) : .reset ∉ asInput ws := by
  simp [asInput]

/-- The words that arrive next are those sent, then those after them. -/
@[simp] theorem arrivingWords_asInput (ws : List Word) (rest : List PortEvent) :
    arrivingWords (asInput ws ++ rest) = ws ++ arrivingWords rest := by
  induction ws with
  | nil => rfl
  | cons w ws ih => simp [arrivingWords, ih]

@[simp] theorem afterWords_zero (es : List PortEvent) : afterWords es 0 = es := by
  cases es with
  | nil => rfl
  | cons e es => cases e <;> rfl

/-- After as many words as were sent comes what the host does after them. -/
@[simp] theorem afterWords_asInput (ws : List Word) (rest : List PortEvent) :
    afterWords (asInput ws ++ rest) ws.length = rest := by
  induction ws with
  | nil => simp
  | cons w ws ih => simp [afterWords, ih]

/-- Words before a reset do not matter to what comes after it. -/
@[simp] theorem afterReset_asInput (ws : List Word) (rest : List PortEvent) :
    afterReset (asInput ws ++ rest) = afterReset rest := by
  induction ws with
  | nil => rfl
  | cons w ws ih => simp [afterReset, ih]

theorem afterReset_eq_none {es : List PortEvent} : afterReset es = none ↔ .reset ∉ es := by
  induction es with
  | nil => simp [afterReset]
  | cons e es ih => cases e <;> simp [afterReset, ih]

/-! The next action -/

theorem nextAction_ready {s : State} (h : s.response = []) : nextAction s = whileReady s.input := by
  simp [nextAction, h]

theorem nextAction_pending {s : State} (h : s.response ≠ []) :
    nextAction s = whileResponding s.response.length s.input [] := by
  unfold nextAction
  split
  · contradiction
  · next w left hr => simp [hr]

/-- A reset at the front is taken, whatever response words are left (R250, R251). -/
theorem nextAction_reset {s : State} {rest : List PortEvent} (h : s.input = .reset :: rest) : nextAction s = .reset rest := by
  by_cases hr : s.response = []
  · simp [nextAction_ready hr, h, whileReady]
  · simp [nextAction_pending hr, h, whileResponding]

theorem nextAction_idle {s : State} (hr : s.response = []) (h : s.input = []) : nextAction s = .idle := by
  simp [nextAction_ready hr, h, whileReady]

/-- Whole commands: when the arriving words decode to a command, the port delivers it and takes its payload (R60, R63). -/
theorem nextAction_command {s : State} {cw : Word} {ps after : List Word} {i : Instr} {rest : List PortEvent}
    (hr : s.response = []) (h : s.input = asInput (cw :: ps) ++ rest) (hl : ps.length = payloadLength cw)
    (hd : decode (cw :: (ps ++ arrivingWords rest)) = .command i after) :
    nextAction s = .command i rest := by
  rw [nextAction_ready hr, h, asInput_cons, List.cons_append]
  simp [whileReady, hd, ← hl]

/-- An illegal word is delivered alone (R222). -/
theorem nextAction_illegal {s : State} {cw : Word} {r : IllegalReason} {rest : List PortEvent}
    (hr : s.response = []) (h : s.input = .word cw :: rest) (hw : whyIllegal cw = some r) :
    nextAction s = .illegal r rest := by
  simp [nextAction_ready hr, h, whileReady, decode_illegal hw]

/-- A command whose payload has not all arrived waits for a reset (R251, R262). -/
theorem nextAction_partial {s : State} {cw : Word} {rest : List PortEvent}
    (hr : s.response = []) (h : s.input = .word cw :: rest)
    (hd : decode (cw :: arrivingWords rest) = .awaitingPayload) :
    nextAction s = (afterReset rest).elim .starved .reset := by
  rw [nextAction_ready hr, h]
  simp only [whileReady, hd]
  cases afterReset rest <;> rfl

/-- While response words are left, the words that the host sends wait behind one another. -/
theorem whileResponding_asInput (left : Nat) (ws : List Word) (es waiting : List PortEvent) :
    whileResponding left (asInput ws ++ es) waiting = whileResponding left es ((asInput ws).reverse ++ waiting) := by
  induction ws generalizing waiting with
  | nil => rfl
  | cons w ws ih => simp [whileResponding, ih]

/-- What can happen while response words are left: an acceptance, a reset, or nothing ever (R261). No command is taken. -/
theorem whileResponding_cases (left : Nat) (es waiting : List PortEvent) :
    (∃ n rest, whileResponding left es waiting = .accept n rest) ∨
    (∃ rest, whileResponding left es waiting = .reset rest) ∨
    (whileResponding left es waiting = .unaccepted ∧ ∃ ws, es = asInput ws) := by
  induction es generalizing waiting with
  | nil => exact .inr (.inr ⟨rfl, [], rfl⟩)
  | cons e es ih =>
    cases e with
    | word w =>
      rcases ih (.word w :: waiting) with h | h | ⟨h, ws, rfl⟩
      · exact .inl h
      · exact .inr (.inl h)
      · exact .inr (.inr ⟨h, w :: ws, rfl⟩)
    | accept => exact .inl ⟨_, _, rfl⟩
    | acceptAll => exact .inl ⟨_, _, rfl⟩
    | reset => exact .inr (.inl ⟨_, rfl⟩)

/-- The core is idle only when the host does nothing more. -/
theorem whileReady_eq_idle {es : List PortEvent} (h : whileReady es = .idle) : es = [] := by
  cases es with
  | nil => rfl
  | cons e es =>
    cases e with
    | word w =>
      simp only [whileReady] at h
      split at h
      · cases h
      · cases h
      · split at h <;> cases h
      · cases h
    | accept => cases h
    | acceptAll => cases h
    | reset => cases h

/-! The step -/

/-- A step that goes on is idle, a reset, an acceptance, or a command or illegal word, which the core takes only when no response
word is left. -/
theorem step_cases {s t : State} (h : step s = .next t) :
    (nextAction s = .idle ∧ s.input = [] ∧ s.response = [] ∧ t = s) ∨
    (∃ rest, nextAction s = .reset rest ∧ t = assertReset { s with input := rest }) ∨
    (∃ n rest, nextAction s = .accept n rest ∧ t = acceptWords n { s with input := rest }) ∨
    (∃ i rest, nextAction s = .command i rest ∧ s.response = [] ∧ exec i { s with input := rest } = .next t) ∨
    (∃ r rest, nextAction s = .illegal r rest ∧ s.response = [] ∧ t = illegalCommand { s with input := rest }) := by
  have pending : s.response ≠ [] → (∃ n rest, nextAction s = .accept n rest) ∨ (∃ rest, nextAction s = .reset rest) ∨
      nextAction s = .unaccepted := by
    intro hr
    rw [nextAction_pending hr]
    rcases whileResponding_cases s.response.length s.input [] with h | h | h
    · exact .inl h
    · exact .inr (.inl h)
    · exact .inr (.inr h.1)
  have ready : ∀ a, nextAction s = a → (∀ n rest, a ≠ .accept n rest) → (∀ rest, a ≠ .reset rest) → a ≠ .unaccepted →
      s.response = [] := by
    intro a ha h1 h2 h3
    by_contra hr
    rcases pending hr with ⟨n, rest, h⟩ | ⟨rest, h⟩ | h
    · exact h1 n rest (ha.symm.trans h)
    · exact h2 rest (ha.symm.trans h)
    · exact h3 (ha.symm.trans h)
  cases ha : nextAction s with
  | idle =>
    simp only [step, ha, Host.Outcome.next.injEq] at h
    have hr := ready _ ha (by simp) (by simp) (by simp)
    exact .inl ⟨rfl, whileReady_eq_idle (by rw [← nextAction_ready hr, ha]), hr, h.symm⟩
  | reset rest =>
    simp only [step, ha, Host.Outcome.next.injEq] at h
    exact .inr (.inl ⟨rest, rfl, h.symm⟩)
  | accept n rest =>
    simp only [step, ha, Host.Outcome.next.injEq] at h
    exact .inr (.inr (.inl ⟨n, rest, rfl, h.symm⟩))
  | command i rest =>
    simp only [step, ha] at h
    exact .inr (.inr (.inr (.inl ⟨i, rest, rfl, ready _ ha (by simp) (by simp) (by simp), h⟩)))
  | illegal r rest =>
    simp only [step, ha, Host.Outcome.next.injEq] at h
    exact .inr (.inr (.inr (.inr ⟨r, rest, rfl, ready _ ha (by simp) (by simp) (by simp), h.symm⟩)))
  | starved => simp [step, ha] at h
  | unaccepted => simp [step, ha] at h

end Sys2Proof.Machine
end

