-- ==== Sys2Proof/Tests/Slice0.lean ====
section
/-! SUPPORT. The model's own tests: ill-formed commands are refused, words written out from the spec's encodings decode to what
they stand for, the vectors of spec/95_test_vectors.md, and a witness for the hypotheses of every statement that has some. -/

namespace Sys2Proof.Tests

open Sys2Proof Sys2Proof.Machine

/-! Small states -/

/-- A core with no session: zero registers and the default constants. -/
def fresh : State :=
  { key := Vector.replicate 8 0, nonce := Vector.replicate 3 0, ctr := 0, sigma := Config.sigmaDefault,
    cfg := false, flt := false, fcode := 0, input := [], response := [], emitted := [] }

/-- The session `Z` of spec/95_test_vectors.md at a counter. -/
def sessionZ (ctr : Word) : State := { fresh with cfg := true, ctr := ctr }

/-- A core faulted by an illegal command. -/
def faulted : State := { fresh with flt := true, fcode := 0x02 }

/-- A core to which the host does these things next. -/
def withInput (s : State) (events : List PortEvent) : State := { s with input := events }

/-- The state whose word `i` is `i`. -/
def countingBlock : Block := #v[0, 1, 2, 3, 4, 5, 6, 7, 8, 9, 10, 11, 12, 13, 14, 15]

/-- The key `K_rfc` and the nonce `N_rfc` of spec/95_test_vectors.md. -/
def keyRfc : List Word :=
  [0x03020100, 0x07060504, 0x0b0a0908, 0x0f0e0d0c, 0x13121110, 0x17161514, 0x1b1a1918, 0x1f1e1d1c]
def nonceRfc : List Word := [0x09000000, 0x4a000000, 0x00000000]

/-- What a test looks at: the next state, or `none` where the machine stops. -/
def after : Host.Outcome State Fault Refusal → Option State
  | .next s => some s
  | .fault _ => none
  | .refused _ => none

/-- The response words after one step on port words. -/
def answer (s : State) (ws : List Word) : Option (List Word) := (after (step (s.sendWords ws))).map (·.response)

/-- The response words and the packed `STATUS` after one step on port words. -/
def answerStatus (s : State) (ws : List Word) : Option (List Word × Word) :=
  (after (step (s.sendWords ws))).map fun t => (t.response, t.statusWord)

/-! Ill-formed commands (R62 to R64): each check refuses one -/

theorem test_build_key_too_long : (Instr.build (List.replicate 256 0) 0 []).wellFormed = false := by decide +kernel
theorem test_build_nonce_too_long : (Instr.build [] 0 (List.replicate 256 0)).wellFormed = false := by decide +kernel
theorem test_init_key_too_long : (Instr.init (List.replicate 256 0) []).wellFormed = false := by decide +kernel
theorem test_init_nonce_too_long : (Instr.init [] (List.replicate 256 0)).wellFormed = false := by decide +kernel
theorem test_xorChunk_length_zero : (Instr.xorChunk 0 []).wellFormed = false := by decide
theorem test_xorChunk_length_65 : (Instr.xorChunk 65 (List.replicate 17 0)).wellFormed = false := by decide
theorem test_xorChunk_payload_count : (Instr.xorChunk 5 [1]).wellFormed = false := by decide
theorem test_init_wrong_count_is_well_formed : (Instr.init [1] []).wellFormed = true := by decide

/-! Decoding: the words of V-ENC, bit by bit from R61 and R67 -/

theorem test_decode_build :
    decode (0b00000000000000110000100000000001 :: keyRfc ++ [1] ++ nonceRfc) = .command (.build keyRfc 1 nonceRfc) [] := by
  decide
theorem test_decode_qround :
    decode [0b00000000000000000000000000000010, 1, 2, 3, 4] = .command (.qround 1 2 3 4) [] := by decide
theorem test_decode_round_column :
    decode (0b00000000000000000000000000000011 :: countingBlock.toList) = .command (.round .column countingBlock) [] := by
  decide +kernel
theorem test_decode_round_diagonal :
    decode (0b00000000000000000000000100000011 :: countingBlock.toList) = .command (.round .diagonal countingBlock) [] := by
  decide +kernel
theorem test_decode_blockfn :
    decode (0b00000000000000000000000000000100 :: countingBlock.toList) = .command (.blockfn countingBlock) [] := by
  decide +kernel
theorem test_decode_init :
    decode (0b00000000000000110000100000000101 :: keyRfc ++ nonceRfc) = .command (.init keyRfc nonceRfc) [] := by decide
theorem test_decode_ksCurrent : decode [0b00000000000000000000000000000110, 9] = .command .ksCurrent [9] := by decide
theorem test_decode_ksAdvance : decode [0b00000000000000000000000000000111] = .command .ksAdvance [] := by decide
theorem test_decode_xorChunk :
    decode [0b00000000000000000000011000001000, 1, 2, 3] = .command (.xorChunk 6 [1, 2]) [3] := by decide
theorem test_decode_awaiting : decode [0b00000000000000000000011000001000, 1] = .awaitingPayload := by decide

/-- The illegal words of V-ERR-1, 2, 3, 9, 10, 11 and 12, each rejected by the name of its reason. -/
theorem test_illegal_words :
    [0x00000009, 0x01000006, 0x00000008, 0x00004108, 0x00000203, 0x00000102, 0x00000000].map whyIllegal =
      [some .unknownOpcode, some .reservedNonzero, some .chunkLength, some .chunkLength, some .roundPattern,
        some .operandFieldNonzero, some .unknownOpcode] := by decide

/-- V-ENC: payload lengths. -/
theorem test_payload_lengths :
    [0x00030801, 0x00000002, 0x00000003, 0x00000103, 0x00000004, 0x00030805, 0x00000006, 0x00000007, 0x00004008,
      0x00000608, 0x00000108, 0x00003f08, 0x00030705, 0x00040805, 0x00000009].map payloadLength =
      [12, 4, 16, 16, 16, 11, 0, 0, 16, 2, 1, 16, 10, 12, 0] := by decide

/-- The host's opcode-table interface: the word of V-ENC-10 with a zero payload. -/
theorem test_decodeTableWord : decodeTableWord 32 0x00000608 = some (.xorChunk 6 [0, 0]) := by decide

/-! Vectors -/

/-- `SIGMA`'s default is the ASCII string of R8, four little-endian words. -/
theorem test_sigma_is_the_ascii_string :
    unpackWords Config.sigmaDefault.toList = "expand 32-byte k".toList.map fun c => BitVec.ofNat 8 c.toNat := by decide

/-- V-BUILD-1. -/
theorem test_build : answer fresh (0x00030801 :: keyRfc ++ [1] ++ nonceRfc) =
    some (0x00001000 :: [0x61707865, 0x3320646e, 0x79622d32, 0x6b206574] ++ keyRfc ++ [1] ++ nonceRfc) := by decide

/-- V-BUILD-3. -/
theorem test_build_wrong_count : answerStatus fresh (0x00030701 :: List.replicate 11 0) = some ([0x00000001], 0x00000102) := by
  decide

/-- V-QR-1, with the `d` of spec/90_conflicts.md C1. -/
theorem test_qround : answer fresh [0x00000002, 0x11111111, 0x01020304, 0x9b8d6f43, 0x01234567] =
    some [0x00000400, 0xea2a92f4, 0xcb1cf8ce, 0x4581472e, 0x5881c4bb] := by decide

/-- V-QR-3: every addition wraps. -/
theorem test_qround_wraps : answer fresh [0x00000002, 0xffffffff, 0xffffffff, 0xffffffff, 0xffffffff] =
    some [0x00000400, 0xf0000ffd, 0x88790878, 0x0110fdef, 0x010ffdf0] := by decide

/-- V-ROUND-1. -/
theorem test_round_column : answer fresh (0x00000003 :: countingBlock.toList) = some
    [0x00001000, 0x8000c004, 0xb000c006, 0x6000c008, 0x5000c00a, 0x64624444, 0xe5e35cdd, 0x63643533, 0xe2e52daa,
      0x08c80488, 0x0bcb06b9, 0x06c6086a, 0x05c50a5b, 0x08c00480, 0x0bc006b0, 0x06c00860, 0x05c00a50] := by decide +kernel

/-- V-ROUND-2. -/
theorem test_round_diagonal : answer fresh (0x00000103 :: countingBlock.toList) = some
    [0x00001000, 0xa000f005, 0xb000d007, 0x4000f009, 0x9000d007, 0xecebcccc, 0x7d7ad555, 0xedebdddd, 0x7a7ca422,
      0x04f40948, 0x09d90799, 0x0afa05aa, 0x0bdb07bb, 0x0bd007b0, 0x04f00940, 0x09d00790, 0x0af005a0] := by decide +kernel

/-- V-BLK-3. -/
theorem test_blockfn : answer fresh (0x00000004 :: countingBlock.toList) = some
    [0x00001000, 0x48e90081, 0xf390518c, 0x224b1422, 0x0e74bdb7, 0x888688d2, 0x108e96f4, 0x1de13d82, 0x71bc3e28,
      0x281ff786, 0x66900ebd, 0xd3bfbe82, 0x815f33ee, 0x665aaeb4, 0x7485a165, 0x61889ce7, 0x94255e20] := by decide +kernel

/-- P2's first step: the session registers after `INIT`. -/
theorem test_init : (after (step ({ fresh with ctr := 7 }.sendWords (0x00030805 :: keyRfc ++ nonceRfc)))).map (fun t =>
      (t.response, t.statusWord, t.key.toList, t.nonce.toList, t.ctr)) =
    some ([0x00000000], 0x00000001, keyRfc, nonceRfc, 0) := by decide +kernel

/-- V-ERR-13: a failed `INIT` leaves the session. -/
theorem test_init_wrong_count : (after (step ((sessionZ 5).sendWords (0x00040805 :: List.replicate 12 1)))).map (fun t =>
      (t.response, t.statusWord, t.ctr, t.key.toList)) = some ([0x00000001], 0x00000103, 5, List.replicate 8 0) := by
  decide +kernel

/-- V-KS-1. -/
theorem test_ksCurrent : answer (sessionZ 0) [0x00000006] = some
    [0x00001000, 0xade0b876, 0x903df1a0, 0xe56a5d40, 0x28bd8653, 0xb819d2bd, 0x1aed8da0, 0xccef36a8, 0xc70d778b,
      0x7c5941da, 0x8d485751, 0x3fe02477, 0x374ad8b8, 0xf4b8436a, 0x1ca11815, 0x69b687c3, 0x8665eeb2] := by decide +kernel

/-- V-ERR-6. -/
theorem test_ksCurrent_not_configured : answerStatus fresh [0x00000006] = some ([0x00000003], 0x00000302) := by decide

/-- V-KS-7: the counter wraps and sets no flag. -/
theorem test_ksAdvance_wraps : (after (step ((sessionZ 0xffffffff).sendWords [0x00000007]))).map (fun t =>
      (t.response, t.statusWord, t.ctr)) = some ([0x00000000], 0x00000001, 0) := by decide

/-- V-ERR-7. -/
theorem test_ksAdvance_not_configured : answerStatus fresh [0x00000007] = some ([0x00000003], 0x00000302) := by decide

/-- V-XOR-1: bytes 1 to 3 of the payload word are ignored, and the counter advances. -/
theorem test_xorChunk_one_byte : (after (step ((sessionZ 0).sendWords [0x00000108, 0xaabbcc41]))).map (fun t =>
      (t.response.take 3, t.ctr)) = some ([0x00001000, 0xade0b837, 0x903df1a0], 1) := by decide +kernel

/-- V-XOR-3: byte 63 is padding. -/
theorem test_xorChunk_63_bytes :
    ((answer (sessionZ 0) (0x00003f08 :: List.replicate 16 0xffffffff)).map fun r => (r.length, r.drop 15)) =
      some (17, [0x9649783c, 0x869a114d]) := by decide +kernel

/-- V-ERR-14: a faulted core does not look at the word's legality. -/
theorem test_faulted_illegal : answerStatus faulted [0x00000009] = some ([0x00020004], 0x00000202) := by decide

/-- R251: a reset discards a partial command, with no response for it. -/
theorem test_reset_discards_partial : (after (step { fresh with
      input := [.word 0x00000608, .word 1, .reset, .word 2], emitted := [0x00000000] })).map (fun t =>
      (t.input, t.response, t.emitted)) = some ([.word 2], [], [0x00000000]) := by decide

/-- R251: a reset during a response leaves the words the host had accepted. -/
theorem test_reset_truncates_response : (after (core.run 3 { fresh with
      input := [.accept, .accept, .reset], response := [0x00000400, 1, 2, 3, 4] })).map (fun t =>
      (t.emitted, t.response, t.session)) = some ([0x00000400, 1], [], none) := by decide

/-- R261: a command sent before the host has accepted the response waits. -/
theorem test_pending_response_holds_back_command : (after (step { sessionZ 0 with
      input := [.word 0x00000007, .acceptAll], response := [0x00000000] })).map (fun t =>
      (t.input, t.response, t.emitted, t.ctr)) = some ([.word 0x00000007], [], [0x00000000], 0) := by decide

/-- R261: a host that never accepts a response stalls the core. -/
theorem test_unaccepted_response_stops :
    after (step { fresh with input := [.word 0x00000007], response := [0x00000000] }) = none := by decide

/-- R262: an incomplete command is stuck. -/
theorem test_incomplete_command_stops : after (step (withInput fresh [.word 0x00000608, .word 1])) = none := by decide

/-- R193: 70 bytes are a chunk of 64 and one of 6 (S2). -/
theorem test_chunks_of_70_bytes : (chunks (List.replicate 70 0)).map List.length = [64, 6] := by decide

/-! Witnesses for the statements' hypotheses -/

theorem witness_DecodeOfEncodeIsTheCommand :
    (Instr.build (List.replicate 255 1) 2 (List.replicate 255 3)).wellFormed = true ∧
      (Instr.xorChunk 64 (List.replicate 16 1)).wellFormed = true ∧ (Instr.xorChunk 1 [1]).wellFormed = true := by
  decide +kernel

theorem witness_EncodeOfDecodeIsTheWordsTaken : decode [0x00000108, 7, 8] = .command (.xorChunk 1 [7]) [8] := by decide

theorem witness_IllegalWordsAreExactlyThoseOfTheSpec :
    fresh.flt = false ∧ fresh.response = [] ∧ (withInput fresh [.word 0x00004108]).input = .word 0x00004108 :: [] ∧ legal 0x00004108 = false := by
  decide

/-- A legal word with a payload, and an illegal one with none. -/
theorem witness_EveryCommandWordTakesItsPayloadLength :
    (withInput fresh (asInput [0x00000608, 1, 2] ++ [.reset])).receives 0x00000608 [1, 2] [.reset] ∧
      (withInput fresh (asInput [0x00000000] ++ [.reset])).receives 0x00000000 [] [.reset] ∧ legal 0x00000608 = true :=
  ⟨⟨rfl, rfl, by decide⟩, ⟨rfl, rfl, by decide⟩, by decide⟩

theorem witness_StepRunsTheDecodedCommand :
    (Instr.xorChunk 6 [1, 2]).wellFormed = true ∧ fresh.response = [] ∧
      (withInput fresh (asInput (encode (.xorChunk 6 [1, 2])) ++ [.reset])).input =
        asInput (encode (.xorChunk 6 [1, 2])) ++ [.reset] := by decide

theorem witness_StepsRunTheCommandSequenceInOrder :
    (∀ i ∈ [Instr.ksAdvance, .ksCurrent], i.wellFormed = true) ∧ fresh.response = [] ∧
      (withInput fresh [.word 0x00000007, .acceptAll, .word 0x00000006, .acceptAll, .reset]).input =
        [Instr.ksAdvance, .ksCurrent].flatMap exchange ++ [.reset] := by decide

/-- Each clause: nothing but words to come, an acceptance of one word and of all behind a waiting word, a reset behind one, an
acceptance that finds no word, and a step that goes on while response words are left. -/
theorem witness_PendingResponseHoldsBackTheNextCommand :
    (faulted.response = [] ∧ { faulted with response := [0x00000002] }.response ≠ []) ∧
      (withInput faulted [.word 7]).input = asInput [7] ∧
      (withInput faulted [.word 7, .accept, .word 8]).input = asInput [7] ++ .accept :: [.word 8] ∧
      (withInput faulted [.acceptAll]).input = asInput [] ++ .acceptAll :: [] ∧
      (withInput faulted [.word 7, .reset]).input = asInput [7] ++ .reset :: [] ∧
      (after (step { faulted with response := [0x00000002], input := [.accept] })).isSome = true := by decide

theorem witness_IllegalWordConsumesNoPayloadAndFaults :
    fresh.flt = false ∧ fresh.response = [] ∧ legal 0x00000008 = false ∧
      (withInput fresh [.word 0x00000008, .word 0x00000108, .word 5]).input =
        .word 0x00000008 :: [.word 0x00000108, .word 5] ∧
      (match step (withInput fresh [.word 0x00000008, .word 0x00000108, .word 5]) with
        | .next t => (acceptResponse t).receives 0x00000108 [5] []
        | .fault _ => False
        | .refused _ => False) := ⟨rfl, rfl, by decide, rfl, ⟨rfl, rfl, by decide⟩⟩

theorem witness_FaultedCoreRefusesEveryCommand :
    (withInput faulted (asInput [0x00000108, 1] ++ [])).flt = true ∧
      (withInput faulted (asInput [0x00000108, 1] ++ [])).receives 0x00000108 [1] [] := ⟨rfl, rfl, rfl, by decide⟩

/-- A word for each outcome of the chain: faulted, illegal, a wrong count, no session, and `OK`. -/
theorem witness_FirstErrorInPriorityOrderIsReported :
    (withInput faulted (asInput [0x00000009] ++ [])).receives 0x00000009 [] [] ∧
      (withInput fresh (asInput [0x00000009] ++ [])).receives 0x00000009 [] [] ∧
      (withInput fresh (asInput [0x00000005] ++ [])).receives 0x00000005 [] [] ∧
      (withInput fresh (asInput [0x00000006] ++ [])).receives 0x00000006 [] [] ∧
      (withInput fresh (asInput [0x00000002, 0, 0, 0, 0] ++ [])).receives 0x00000002 [0, 0, 0, 0] [] :=
  ⟨⟨rfl, rfl, by decide⟩, ⟨rfl, rfl, by decide⟩, ⟨rfl, rfl, by decide⟩, ⟨rfl, rfl, by decide⟩, ⟨rfl, rfl, by decide⟩⟩

theorem witness_EveryCommandGivesOneResponseOfTheFormat :
    exec .ksAdvance fresh = .next (raise .notConfigured fresh) ∧
      exec (.qround 0 0 0 0) fresh = .next (respond .ok [0, 0, 0, 0] fresh) ∧
      exec .ksCurrent faulted = .next (refuseFaulted faulted) := ⟨rfl, rfl, rfl⟩

theorem witness_IdleCoreHoldsItsState : fresh.runEnded = true := by decide

/-- Both stops, at the smallest input of each. -/
theorem witness_StepStopsOnlyWhereTheCoreWaitsForEver :
    (fresh.response = [] ∧ (withInput fresh [.word 0x00000108, .accept]).input = .word 0x00000108 :: [.accept] ∧
      .reset ∉ [PortEvent.accept] ∧ legal 0x00000108 = true ∧
      (arrivingWords [.accept]).length < payloadLength 0x00000108) ∧
    ({ fresh with response := [0x00000000] }.response ≠ [] ∧ fresh.input = asInput []) := by decide

theorem witness_ResetClearsTheStatusAndTheSession : (withInput faulted [.reset]).input = .reset :: [] := rfl

theorem witness_ResetDiscardsPartialCommandAndTruncatesResponse :
    fresh.response = [] ∧ legal 0x00000608 = true ∧ [(1 : Word)].length < payloadLength 0x00000608 ∧
      (withInput fresh [.word 0x00000608, .word 1, .reset]).input = asInput (0x00000608 :: [1]) ++ .reset :: [] ∧
      (withInput fresh [.reset]).input = .reset :: [] := by decide

theorem witness_UnconfiguredSessionValuesAreUnobservable :
    fresh.cfg = false ∧ sameButSession fresh { fresh with ctr := 5 } := ⟨rfl, fresh.key, fresh.nonce, 5, rfl⟩

theorem witness_QuarterRoundIsTheFourSteps :
    ∃ a b c d a1 d1 c1 b1 a2 d2 c2 b2 : Word,
      a = 0x11111111 ∧ b = 0x01020304 ∧ c = 0x9b8d6f43 ∧ d = 0x01234567 ∧
      a1 = a + b ∧ d1 = ((d ^^^ a1) <<< 16 ||| (d ^^^ a1) >>> 16) ∧
      c1 = c + d1 ∧ b1 = ((b ^^^ c1) <<< 12 ||| (b ^^^ c1) >>> 20) ∧
      a2 = a1 + b1 ∧ d2 = ((d1 ^^^ a2) <<< 8 ||| (d1 ^^^ a2) >>> 24) ∧
      c2 = c1 + d2 ∧ b2 = ((b1 ^^^ c2) <<< 7 ||| (b1 ^^^ c2) >>> 25) :=
  ⟨_, _, _, _, _, _, _, _, _, _, _, _, rfl, rfl, rfl, rfl, rfl, rfl, rfl, rfl, rfl, rfl, rfl, rfl⟩

theorem witness_QuarterRoundAtFourIndicesLeavesTheOthers : ([0, 5, 10, 15] : List (Fin 16)).Nodup := by decide

theorem witness_QuarterRoundsOfARoundRunInAnyOrder :
    List.Perm [((3, 7, 11, 15) : Fin 16 × Fin 16 × Fin 16 × Fin 16), (2, 6, 10, 14), (1, 5, 9, 13), (0, 4, 8, 12)]
        [(0, 4, 8, 12), (1, 5, 9, 13), (2, 6, 10, 14), (3, 7, 11, 15)] ∧
      List.Perm [((3, 4, 9, 14) : Fin 16 × Fin 16 × Fin 16 × Fin 16), (2, 7, 8, 13), (1, 6, 11, 12), (0, 5, 10, 15)]
        [(0, 5, 10, 15), (1, 6, 11, 12), (2, 7, 8, 13), (3, 4, 9, 14)] := by decide

theorem witness_BuildLaysOutTheState :
    build Config.sigmaDefault (List.replicate 8 0) 0 (List.replicate 3 0) =
      some (layout Config.sigmaDefault (Vector.replicate 8 0) 0 (Vector.replicate 3 0)) := by decide +kernel

/-- Bytes at the first and the last place of a string, and of two words. -/
theorem witness_ByteStreamsCrossThePortLittleEndian :
    0 < ([1, 2, 3, 4, 5] : List Byte).length ∧ 4 < ([1, 2, 3, 4, 5] : List Byte).length ∧
      7 < 4 * ([1, 2] : List Word).length ∧ (sessionZ 0).flt = false ∧
      (sessionZ 0).session = some ⟨(sessionZ 0).key, (sessionZ 0).nonce, 0⟩ := ⟨by decide, by decide, by decide, rfl, rfl⟩

/-- For ShortChunkIsPaddedWithZeroBytes, ChunkIsXoredByteByByte and XorChunkCommandXorsAndAdvances: the shortest and the longest
chunk, and one that ends inside a word. -/
theorem witness_chunk_lengths :
    (1 ≤ 1 ∧ 1 ≤ 64 ∧ ([7] : List Word).length = (1 + 3) / 4) ∧
      (1 ≤ 6 ∧ 6 ≤ 64 ∧ ([7, 8] : List Word).length = (6 + 3) / 4) ∧
      (1 ≤ 64 ∧ 64 ≤ 64 ∧ (List.replicate 16 (7 : Word)).length = (64 + 3) / 4) := by decide

theorem witness_BuildCommandReturnsTheState :
    (0x00030801 : Word).toNat % 256 = 1 ∧ (List.replicate 255 (0 : Word)).length ≤ 255 ∧ faulted.flt = true ∧
      fresh.flt = false ∧ ((List.replicate 9 (0 : Word)).length ≠ 8) ∧
      List.replicate 8 (0 : Word) = (Vector.replicate 8 0).toList ∧
      List.replicate 3 (0 : Word) = (Vector.replicate 3 0).toList := by decide +kernel

theorem witness_QroundCommandReturnsTheQuarterRound :
    (0x00000102 : Word).toNat % 256 = 2 ∧ faulted.flt = true ∧ fresh.flt = false ∧
      quarterRound 0x11111111 0x01020304 0x9b8d6f43 0x01234567 = (0xea2a92f4, 0xcb1cf8ce, 0x4581472e, 0x5881c4bb) := by decide

theorem witness_RoundCommandReturnsTheRound :
    (0x00000203 : Word).toNat % 256 = 3 ∧ faulted.flt = true ∧ fresh.flt = false := by decide

theorem witness_BlockfnCommandReturnsTheTwentyRounds :
    (0x00000104 : Word).toNat % 256 = 4 ∧ faulted.flt = true ∧ fresh.flt = false := by decide

theorem witness_InitCommandStartsTheSession :
    (0x00030805 : Word).toNat % 256 = 5 ∧ (List.replicate 255 (0 : Word)).length ≤ 255 ∧ faulted.flt = true ∧
      fresh.flt = false ∧ ((List.replicate 4 (0 : Word)).length ≠ 3) ∧
      List.replicate 8 (0 : Word) = (Vector.replicate 8 0).toList ∧
      List.replicate 3 (0 : Word) = (Vector.replicate 3 0).toList := by decide +kernel

/-- For KsCurrentCommandReturnsTheBlock, KsAdvanceCommandIncrementsTheCounter and XorChunkCommandXorsAndAdvances: each opcode, and a
state for each clause. -/
theorem witness_session_commands :
    (0x00000006 : Word).toNat % 256 = 6 ∧ (0x00000007 : Word).toNat % 256 = 7 ∧ (0x00004008 : Word).toNat % 256 = 8 ∧
      faulted.flt = true ∧ (fresh.flt = false ∧ fresh.cfg = false) ∧ ((sessionZ 0).flt = false ∧ (sessionZ 0).cfg = true) ∧
      build (sessionZ 0).sigma (sessionZ 0).key.toList (sessionZ 0).ctr (sessionZ 0).nonce.toList =
        some (layout (sessionZ 0).sigma (sessionZ 0).key (sessionZ 0).ctr (sessionZ 0).nonce) := by decide +kernel

/-- A command that completes, one that raises an error, and one that a faulted core refuses. -/
theorem witness_CommandsWriteOnlyTheListedState :
    exec .ksAdvance (sessionZ 3) = .next (respond .ok [] (advanceCounter (sessionZ 3))) ∧
      (respond .ok [] (advanceCounter (sessionZ 3))).response = [] ++ 0x00000000 :: [] ∧
      exec .ksAdvance fresh = .next (raise .notConfigured fresh) ∧ fresh.flt = false ∧
      (raise .notConfigured fresh).response = [] ++ 0x00000003 :: [] ∧
      exec .ksAdvance faulted = .next (refuseFaulted faulted) ∧ faulted.flt = true :=
  ⟨rfl, by decide, rfl, rfl, by decide, rfl, rfl⟩

theorem witness_DiagnosticCommandsDoNotTouchTheSession : diagnostic (.qround 1 2 3 4) = true := rfl

theorem witness_EveryStepKeepsTheStatusLegal :
    (withInput fresh [.word 0x00000009]).statusLegal = true ∧
      step (withInput fresh [.word 0x00000009]) = .next (raise .illegalCommand fresh) ∧
      faulted.statusLegal = true ∧ step (withInput faulted [.reset]) = .next (assertReset faulted) :=
  ⟨by decide, rfl, by decide, rfl⟩

/-- For OnlyInitAndResetReplaceTheSession, ConfiguredFlagFollowsInitAndReset and FaultLatchIsClearedOnlyByReset: a step that is
neither a reset nor a successful `INIT`, one of each of those, one of a faulted core, and an acceptance. -/
theorem witness_step_kinds :
    (withInput (sessionZ 0) [.word 0x00000007]).resets = false ∧
      (withInput (sessionZ 0) [.word 0x00000007]).startsSession = false ∧
      step (withInput (sessionZ 0) [.word 0x00000007]) = .next (respond .ok [] (advanceCounter (sessionZ 0))) ∧
      (withInput faulted [.reset]).resets = true ∧
      (withInput fresh (asInput (0x00030805 :: List.replicate 11 0))).startsSession = true ∧
      ((withInput faulted [.word 0x00000007]).resets = false ∧ faulted.flt = true) ∧
      ((withInput fresh [.word 0x00000007]).takesCommand = true ∧ fresh.flt = false) ∧
      (withInput faulted [.accept]).takesCommand = false ∧ fresh.statusLegal = true :=
  ⟨rfl, rfl, rfl, rfl, by decide, ⟨rfl, rfl⟩, ⟨rfl, rfl⟩, rfl, by decide⟩

theorem witness_KeystreamReadIsIdempotent :
    (sessionZ 0).response = [] ∧ (∀ i ∈ [Instr.qround 1 2 3 4, .ksCurrent], advances i = false ∧ ∀ key nonce, i ≠ .init key nonce) ∧
      ∃ t, runCommands [.ksCurrent, .qround 1 2 3 4, .ksCurrent] (sessionZ 0) = .next t ∧ t.flt = false := by
  refine ⟨rfl, ?_, _, rfl, rfl⟩
  intro i hi
  simp only [List.mem_cons, List.not_mem_nil, or_false] at hi
  rcases hi with rfl | rfl <;> exact ⟨rfl, fun _ _ h => by cases h⟩

/-- For CounterCountsBlocksModuloTwoToThe32, EqualSessionsRunInLockstep and the three statements about `transform`: two unfaulted
cores with the same constants, commands that advance, and a chunk. -/
theorem witness_sequences :
    (chunks [7])[0]? = some [7] ∧ fresh.flt = false ∧ (sessionZ 9).flt = false ∧ fresh.sigma = (sessionZ 9).sigma ∧
      ∀ i ∈ [Instr.ksAdvance, .xorChunk 1 [65]], advances i = true := ⟨rfl, rfl, rfl, rfl, by decide⟩

theorem witness_PlacedTableWordIsTheNextInstructionRun :
    decodeTableWord 32 0x00000007 = some .ksAdvance ∧
      decodeTableWord 32 0x00000002 = some (.qround 0 0 0 0) := by decide

theorem witness_TransformLineRunsAsTheHostProtocol : fresh.input = [] ∧ fresh.response = [] := ⟨rfl, rfl⟩

end Sys2Proof.Tests
end

section
/-! PROOFS. The status fields and the fault latch (spec/10_state.md): the packed `STATUS` word, what a taken command can do to
the latch, and what a step can do to the status fields. -/

namespace Sys2Proof.Machine

open Sys2Proof

/-! The packed `STATUS` word (R28) -/

@[simp] theorem bit_toNat (b : Bool) : (bit b).toNat = b.toNat := by
  cases b <;> rfl

/-- The packed `STATUS` word as a number (R28). -/
theorem statusWord_toNat (s : State) :
    s.statusWord.toNat = s.cfg.toNat + 2 * s.flt.toNat + 2 ^ 8 * s.fcode.toNat := by
  simp only [State.statusWord, append_toNat, bit_toNat, BitVec.toNat_ofNat]
  omega

/-- The legal status fields, with the code as a number (R25 to R27). -/
theorem statusLegal_iff (s : State) : s.statusLegal = true ↔
    s.flt = false ∧ s.fcode.toNat = 0 ∨
    s.flt = true ∧ (s.fcode.toNat = 1 ∨ s.fcode.toNat = 2 ∨ s.fcode.toNat = 3 ∧ s.cfg = false) := by
  cases hf : s.flt <;> simp [State.statusLegal, hf, ← BitVec.toNat_inj, or_assoc]

/-- With a clear latch a legal code is 0 (R27). -/
theorem fcode_eq_zero_of_statusLegal {s : State} (hl : s.statusLegal = true) (hf : s.flt = false) : s.fcode = 0x00 := by
  simpa [State.statusLegal, hf] using hl

/-- Settles O46: with the word as a number, membership in the list is arithmetic in the code for each value of the two flags. -/
theorem statusWordHasTheSpecsLayout : Obligations.StatusWordHasTheSpecsLayout := by
  intro s
  refine ⟨statusWord_toNat s, ?_⟩
  rw [statusLegal_iff]
  simp only [List.mem_cons, List.not_mem_nil, or_false, ← BitVec.toNat_inj, statusWord_toNat]
  cases s.flt <;> cases s.cfg <;> simp <;> omega

/-! Response words (R65, R66) -/

/-- The low byte of a response word is its status code. -/
@[simp] theorem responseWord_toNat_mod (cause nout status : Byte) :
    (responseWord cause nout status).toNat % 256 = status.toNat := by
  rw [responseWord_toNat]; omega

/-- The response word of a faulted core (R224). -/
theorem responseWord_faulted (cause : Byte) : responseWord cause 0#8 4#8 = 0#8 ++ cause ++ 4#16 := by
  apply BitVec.eq_of_toNat_eq
  simp only [responseWord_toNat, append_toNat, BitVec.toNat_ofNat]
  omega

/-- No error has the status code of `OK` (R66). -/
theorem Err.code_toNat_ne_zero (e : Err) : e.code.toNat ≠ 0 := by
  cases e <;> decide

/-! What a taken command word can do to the fault latch -/

/-- How a core in state `s` can answer a command word, legal or not: it refuses while faulted (R224), raises an error (R226), or
completes and leaves the latch clear and the code as it was. -/
inductive Answered (s : State) : State → Prop where
  | refused : s.flt = true → Answered s (refuseFaulted s)
  | raised (e : Err) : s.flt = false → Answered s (raise e s)
  | completed (out : List Word) (u : State) : s.flt = false → u.flt = false → u.fcode = s.fcode →
      u.response = s.response → Answered s (respond .ok out u)

theorem exec_answered {i : Instr} {s t : State} (h : exec i s = .next t) : Answered s t := by
  rcases exec_cases i s with ⟨hf, hx⟩ | ⟨hf, e, hx⟩ | ⟨hf, _, _, k, n, _, _, _, hx⟩ | ⟨hf, _, _, out, hx⟩ |
    ⟨hf, _, out, hx⟩ <;> obtain rfl := Host.Outcome.next.inj (hx.symm.trans h)
  · exact .refused hf
  · exact .raised e hf
  all_goals exact .completed _ _ hf hf rfl rfl

theorem illegalCommand_answered (s : State) : Answered s (illegalCommand s) := by
  cases hf : s.flt with
  | true => rw [illegalCommand, unlessFaulted_faulted hf]; exact .refused hf
  | false => rw [illegalCommand, unlessFaulted_ok hf]; exact .raised _ hf

/-- A faulted core can only refuse. -/
theorem Answered.eq_refuseFaulted {s t : State} (h : Answered s t) (hf : s.flt = true) : t = refuseFaulted s := by
  cases h with
  | refused => rfl
  | raised _ hf' => simp [hf] at hf'
  | completed _ _ hf' => simp [hf] at hf'

/-- An unfaulted core latches exactly the status of an error response, as its code (R26, R27). -/
theorem Answered.latches_error {s t : State} (h : Answered s t) (hr : s.response = []) (hf : s.flt = false) :
    t.flt = !((t.response.headD 0).toNat % 256 == 0) ∧
    (t.flt = true → t.fcode.toNat = (t.response.headD 0).toNat % 256) ∧
    (t.flt = false → t.fcode = s.fcode) := by
  cases h with
  | refused hf' => simp [hf] at hf'
  | raised e => simp [hr, e.code_toNat_ne_zero]
  | completed out u _ huf huc hur => simp [huf, huc, hur, hr, Status.code]

/-- An answer leaves the latch clear only on an unfaulted core, and then keeps the code. -/
theorem Answered.flt_and_fcode_of_flt_eq_false {s t : State} (h : Answered s t) (ht : t.flt = false) :
    s.flt = false ∧ t.fcode = s.fcode := by
  cases h with
  | refused hf => simp [hf] at ht
  | raised => simp at ht
  | completed _ _ hf _ hc => exact ⟨hf, hc⟩

/-! What a step can do to the status fields -/

/-- A step that goes on is a reset; a step that takes no command and leaves every register; or the answer to a command word. -/
theorem step_kinds {s t : State} (h : step s = .next t) :
    (s.resets = true ∧ s.takesCommand = false ∧ ∃ rest, t = assertReset { s with input := rest }) ∨
    (s.resets = false ∧ s.takesCommand = false ∧
      t.flt = s.flt ∧ t.fcode = s.fcode ∧ t.key = s.key ∧ t.nonce = s.nonce ∧ t.ctr = s.ctr ∧ t.cfg = s.cfg) ∨
    (s.resets = false ∧ s.takesCommand = true ∧ s.response = [] ∧ ∃ rest, Answered { s with input := rest } t) := by
  rcases step_cases h with ⟨ha, _, _, rfl⟩ | ⟨rest, ha, rfl⟩ | ⟨n, rest, ha, rfl⟩ | ⟨i, rest, ha, hr, hx⟩ |
    ⟨r, rest, ha, hr, rfl⟩ <;> simp only [State.resets, State.takesCommand, ha]
  · simp
  · exact .inl ⟨trivial, trivial, rest, rfl⟩
  · simp
  · exact .inr (.inr ⟨trivial, trivial, hr, rest, exec_answered hx⟩)
  · exact .inr (.inr ⟨trivial, trivial, hr, rest, illegalCommand_answered _⟩)

/-- Settles O49: each clause speaks of one of the kinds of step, and of one of the answers a command word can get. -/
theorem faultLatchIsClearedOnlyByReset : Obligations.FaultLatchIsClearedOnlyByReset := by
  intro s t h
  rcases step_kinds h with ⟨hres, htc, rest, rfl⟩ | ⟨hres, htc, hflt, hfcode, hkept⟩ | ⟨hres, htc, hr, rest, hanswer⟩
  · simp [hres, htc]
  · refine ⟨by simp [hres], fun _ hf => ?_, fun _ _ => ⟨hflt, hfcode⟩, by simp [htc], fun hl hf => ?_⟩
    · exact ⟨hflt.trans hf, hfcode, by simpa [htc] using hkept⟩
    · exact hfcode.trans (fcode_eq_zero_of_statusLegal hl (hflt.symm.trans hf))
  · refine ⟨by simp [hres], fun _ hf => ?_, by simp [htc], fun _ hf => hanswer.latches_error hr hf, fun hl hf => ?_⟩
    · obtain rfl := hanswer.eq_refuseFaulted hf
      simp [hf, hr, responseWord_faulted]
    · obtain ⟨hsf, hsame⟩ := hanswer.flt_and_fcode_of_flt_eq_false hf
      exact hsame.trans (fcode_eq_zero_of_statusLegal hl hsf)

/-! What sets and clears `STATUS.CFG` (R25) -/

@[simp] theorem illegalCommand_cfg (s : State) : (illegalCommand s).cfg = s.cfg := by
  cases hf : s.flt with
  | true => rw [illegalCommand, unlessFaulted_faulted hf, refuseFaulted_cfg]
  | false => rw [illegalCommand, unlessFaulted_ok hf, raise_cfg]

/-- Only `INIT` writes `STATUS.CFG`. -/
theorem exec_cfg_of_ne_init {i : Instr} {s t : State} (h : exec i s = .next t) (hi : ∀ key nonce, i ≠ .init key nonce) :
    t.cfg = s.cfg := by
  rcases exec_cases i s with ⟨_, hx⟩ | ⟨_, e, hx⟩ | ⟨_, key, nonce, _, _, rfl, _⟩ | ⟨_, _, _, out, hx⟩ |
    ⟨_, _, out, hx⟩
  case inr.inr.inl => exact absurd rfl (hi key nonce)
  all_goals
    obtain rfl := Host.Outcome.next.inj (hx.symm.trans h)
    rfl

/-- `INIT` sets `STATUS.CFG` where it succeeds: on an unfaulted core, with 8 key words and 3 nonce words (R165). -/
theorem exec_init_cfg {key nonce : List Word} {s t : State} (h : exec (.init key nonce) s = .next t) :
    t.cfg = if !s.flt && key.length == 8 && nonce.length == 3 then true else s.cfg := by
  obtain rfl := Host.Outcome.next.inj h
  cases hf : s.flt with
  | true => simp [unlessFaulted_faulted hf]
  | false =>
    rw [unlessFaulted_ok hf]
    cases hk : shaped Config.keyWords key with
    | none => simp [shaped_eq_none.1 hk]
    | some k =>
      cases hn : shaped Config.nonceWords nonce with
      | none => simp [shaped_eq_none.1 hn]
      | some n => simp [shaped_eq_some hk, shaped_eq_some hn]

/-- Settles O48: the flag after each kind of step, and for a command by whether it is `INIT`. -/
theorem configuredFlagFollowsInitAndReset : Obligations.ConfiguredFlagFollowsInitAndReset := by
  intro s t h
  rcases step_cases h with ⟨ha, _, _, rfl⟩ | ⟨rest, ha, rfl⟩ | ⟨n, rest, ha, rfl⟩ | ⟨i, rest, ha, _, hx⟩ |
    ⟨r, rest, ha, _, rfl⟩
  · simp [State.resets, State.startsSession, ha]
  · simp [State.resets, ha]
  · simp [State.resets, State.startsSession, ha]
  · cases i with
    | init key nonce => simpa [State.resets, State.startsSession, ha] using exec_init_cfg hx
    | build | qround | round | blockfn | ksCurrent | ksAdvance | xorChunk =>
      rw [exec_cfg_of_ne_init hx (by simp)]
      simp [State.resets, State.startsSession, ha]
  · simp [State.resets, State.startsSession, ha]

end Sys2Proof.Machine
end

section
/-! PROOFS. Bytes and words at the command port (spec/20_memory.md, R42, R43), and the frame of every command (R47). -/

namespace Sys2Proof.Machine

open Sys2Proof

/-! The bytes of one word (R42) -/

/-- The four bytes of a word hold the whole word. -/
theorem le32Word_extractLsb' (w : Word) :
    le32Word (w.extractLsb' 0 8) (w.extractLsb' 8 8) (w.extractLsb' 16 8) (w.extractLsb' 24 8) = w := by
  apply BitVec.eq_of_toNat_eq
  have := w.isLt
  simp only [le32Word_toNat, field_toNat]
  omega

/-- The other way round: the bytes of a word made of four bytes are those four. -/
@[simp] theorem le32Bytes_le32Word (b0 b1 b2 b3 : Byte) : le32Bytes (le32Word b0 b1 b2 b3) = [b0, b1, b2, b3] := by
  have := b0.isLt; have := b1.isLt; have := b2.isLt; have := b3.isLt
  simp only [le32Bytes, List.cons.injEq, and_true, ← BitVec.toNat_inj, field_toNat, le32Word_toNat]
  omega

/-- Byte `j` of a word stands at bits `8j+7 : 8j`. -/
theorem le32Bytes_getElem? (w : Word) {j : Nat} (hj : j < 4) : (le32Bytes w)[j]? = some (w.extractLsb' (8 * j) 8) := by
  match j with
  | 0 | 1 | 2 | 3 => rfl

theorem le32Bytes_eq_map_range (w : Word) :
    le32Bytes w = (List.range 4).map fun j => BitVec.ofNat 8 (w.toNat / 2 ^ (8 * j)) := by
  apply List.ext_getElem?
  intro j
  by_cases hj : j < 4
  · simp [le32Bytes_getElem? w hj, hj, ← BitVec.toNat_inj, Nat.shiftRight_eq_div_pow]
  · simp [le32Bytes_length, hj]

theorem le32Bytes_xor (x y : Word) : le32Bytes (x ^^^ y) = List.zipWith (· ^^^ ·) (le32Bytes x) (le32Bytes y) := by
  simp [le32Bytes, BitVec.extractLsb'_xor]

/-- Settles O29: each conversion is its lemma on one word, and `serialize` unpacks the 16 words. -/
theorem littleEndianConversionsAreInverse : Obligations.LittleEndianConversionsAreInverse :=
  ⟨le32Bytes_eq_map_range, le32Word_toNat, fun w => congrArg some (le32Word_extractLsb' w), fun _ => List.flatMap_def⟩

/-! Byte strings in port words (R43) -/

/-- Byte `j` of packed words comes from word `j div 4` at bits `8(j mod 4)+7 : 8(j mod 4)`. -/
theorem unpackWords_getElem? (ws : List Word) (j : Nat) (hj : j < 4 * ws.length) :
    (unpackWords ws)[j]? = some ((ws.getD (j / 4) 0).extractLsb' (8 * (j % 4)) 8) := by
  induction ws generalizing j with
  | nil => simp at hj
  | cons w ws ih =>
    rw [unpackWords_cons]
    rcases Nat.lt_or_ge j 4 with hlt | hge
    · rw [List.getElem?_append_left (by simpa using hlt), le32Bytes_getElem? w hlt, Nat.div_eq_of_lt hlt,
        Nat.mod_eq_of_lt hlt, List.getD_cons_zero]
    · obtain ⟨k, rfl⟩ := Nat.exists_eq_add_of_le' hge
      have hk : k < 4 * ws.length := by rw [List.length_cons] at hj; omega
      rw [List.getElem?_append_right (by simp), le32Bytes_length, Nat.add_sub_cancel, ih k hk,
        Nat.add_div_right k (by decide), Nat.add_mod_right, List.getD_cons_succ]

theorem packBytes_length (bytes : List Byte) : (packBytes bytes).length = (bytes.length + 3) / 4 := by
  induction bytes using packBytes.induct with
  | case1 | case2 | case3 | case4 => simp [packBytes]
  | case5 b0 b1 b2 b3 rest ih => simp only [packBytes, List.length_cons, ih]; omega

/-- Packed and unpacked again, a byte string is followed at most by the bytes that fill its last word. -/
theorem prefix_unpackWords_packBytes (bytes : List Byte) : bytes <+: unpackWords (packBytes bytes) := by
  induction bytes using packBytes.induct with
  | case1 | case2 | case3 | case4 => simp [packBytes]
  | case5 b0 b1 b2 b3 rest ih => simpa [packBytes] using ih

/-- Byte `j` of a byte string travels in word `j div 4` at bits `8(j mod 4)+7 : 8(j mod 4)`: unpacking finds it there. -/
theorem packBytes_extractLsb' (bytes : List Byte) (j : Nat) (hj : j < bytes.length) :
    ((packBytes bytes).getD (j / 4) 0).extractLsb' (8 * (j % 4)) 8 = bytes[j] := by
  have hlen : j < 4 * (packBytes bytes).length := by rw [packBytes_length]; omega
  have hbyte : (unpackWords (packBytes bytes))[j]? = some bytes[j] :=
    List.prefix_iff_getElem?.1 (prefix_unpackWords_packBytes bytes) j hj
  exact Option.some.inj ((unpackWords_getElem? _ j hlen).symm.trans hbyte)

/-- An unfaulted core with a session answers `KS_CURRENT` with the block's words and writes nothing else (R166). -/
theorem exec_ksCurrent_of_session {s : State} {x : Session} (hf : s.flt = false) (hx : s.session = some x) :
    exec .ksCurrent s = .next (respond .ok (ksWords s.sigma x).toList s) := by
  simp [exec, execKsCurrent, unlessFaulted_ok hf, requireSession, hx]

/-- Settles O31: packing by its length and by what unpacking gives back, and the other clauses each by its lemma. -/
theorem byteStreamsCrossThePortLittleEndian : Obligations.ByteStreamsCrossThePortLittleEndian :=
  ⟨fun bytes => ⟨packBytes_length bytes, packBytes_extractLsb' bytes⟩, unpackWords_getElem?,
    fun _ _ hf hx => ⟨_, exec_ksCurrent_of_session hf hx, _, rfl⟩, le32Bytes_xor⟩

/-! The frame of every command (R47) -/

theorem exec_keeps_sigma_input_emitted {i : Instr} {s t : State} (h : exec i s = .next t) :
    t.sigma = s.sigma ∧ t.input = s.input ∧ t.emitted = s.emitted := by
  rcases exec_cases i s with ⟨_, hx⟩ | ⟨_, _, hx⟩ | ⟨_, _, _, _, _, _, _, _, hx⟩ | ⟨_, _, _, _, hx⟩ | ⟨_, _, _, hx⟩ <;>
    obtain rfl := Host.Outcome.next.inj (hx.symm.trans h)
  all_goals exact ⟨rfl, rfl, rfl⟩

/-- Only `INIT` writes the key, the nonce and `STATUS.CFG`, and only it and the commands that advance write the counter. -/
theorem exec_session_of_ne_init {i : Instr} {s t : State} (h : exec i s = .next t) (hi : ∀ key nonce, i ≠ .init key nonce) :
    t.key = s.key ∧ t.nonce = s.nonce ∧ t.cfg = s.cfg ∧ (advances i = false → t.ctr = s.ctr) := by
  rcases exec_cases i s with ⟨_, hx⟩ | ⟨_, _, hx⟩ | ⟨_, key, nonce, _, _, rfl, _⟩ | ⟨_, _, hadv, _, hx⟩ | ⟨_, _, _, hx⟩
  case inr.inr.inl => exact absurd rfl (hi key nonce)
  all_goals obtain rfl := Host.Outcome.next.inj (hx.symm.trans h)
  case inr.inr.inr.inl =>
    have : advances i = true := by rcases hadv with rfl | ⟨_, _, rfl⟩ <;> rfl
    exact ⟨rfl, rfl, rfl, by simp [this]⟩
  all_goals exact ⟨rfl, rfl, rfl, fun _ => rfl⟩

/-- What the status of a response says of the registers: `OK` leaves the latch and the code, any other status leaves the session,
and on an unfaulted core it is the code that the latch is set with. -/
theorem exec_frame_by_status {i : Instr} {s t : State} (h : exec i s = .next t) :
    ∃ w out, t.response = s.response ++ w :: out ∧
      (w.toNat % 256 = 0 → t.flt = s.flt ∧ t.fcode = s.fcode) ∧
      (w.toNat % 256 ≠ 0 →
        t.key = s.key ∧ t.nonce = s.nonce ∧ t.ctr = s.ctr ∧ t.cfg = s.cfg ∧
        (s.flt = false → t.flt = true ∧ t.fcode.toNat = w.toNat % 256)) := by
  rcases exec_cases i s with ⟨hf, hx⟩ | ⟨_, e, hx⟩ | ⟨_, _, _, _, _, _, _, _, hx⟩ | ⟨_, _, _, _, hx⟩ | ⟨_, _, _, hx⟩ <;>
    obtain rfl := Host.Outcome.next.inj (hx.symm.trans h) <;> refine ⟨_, _, rfl, ?_⟩
  case inl => simp [hf]
  case inr.inl => simp [e.code_toNat_ne_zero, Status.code]
  all_goals simp [Status.code]

/-- Settles O42: which registers a command may write, by its instruction and by the status it answers; a faulted core only
refuses. -/
theorem commandsWriteOnlyTheListedState : Obligations.CommandsWriteOnlyTheListedState := by
  intro i s t h
  obtain ⟨hsigma, hinput, hemitted⟩ := exec_keeps_sigma_input_emitted h
  refine ⟨hsigma, hinput, hemitted, exec_session_of_ne_init h, fun hf => ?_, exec_frame_by_status h⟩
  obtain rfl := (exec_answered h).eq_refuseFaulted hf
  exact ⟨hf, rfl⟩

end Sys2Proof.Machine
end

section
/-! PROOFS. Command words (spec/30_encoding.md): which are legal and what shapes those have (R64), how many payload words they
take (R63), and that decoding undoes encoding. -/

namespace Sys2Proof

/-! Legality and payload length as arithmetic on the word (R63, R64) -/

/-- The list of R64, opcode by opcode. -/
theorem legal_eq_false_iff (cw : Word) : legal cw = false ↔
    cw.toNat / 2 ^ 24 ≠ 0 ∨ cw.toNat % 256 = 0 ∨ 9 ≤ cw.toNat % 256 ∨
    (cw.toNat % 256 = 2 ∨ cw.toNat % 256 = 4 ∨ cw.toNat % 256 = 6 ∨ cw.toNat % 256 = 7) ∧ cw.toNat / 256 % 65536 ≠ 0 ∨
    cw.toNat % 256 = 3 ∧ (cw.toNat / 65536 % 256 ≠ 0 ∨ 2 ≤ cw.toNat / 256 % 256) ∨
    cw.toNat % 256 = 8 ∧
      (cw.toNat / 65536 % 256 ≠ 0 ∨ cw.toNat / 256 % 256 = 0 ∨ 64 < cw.toNat / 256 % 256) := by
  have hlt := cw.isLt
  rw [legal, opField_toNat]
  split <;>
    simp only [Bool.and_eq_false_iff, Bool.or_eq_false_iff, beq_eq_false_iff_ne, decide_eq_false_iff_not, ne_eq,
      aField_toNat, ← BitVec.toNat_inj, field_toNat, BitVec.toNat_ofNat, reduceCtorEq, or_false, or_true, true_iff,
      imp_false] at * <;>
    omega

theorem opcode_of_legal {cw : Word} (h : legal cw = true) :
    cw.toNat % 256 = 1 ∨ cw.toNat % 256 = 2 ∨ cw.toNat % 256 = 3 ∨ cw.toNat % 256 = 4 ∨
    cw.toNat % 256 = 5 ∨ cw.toNat % 256 = 6 ∨ cw.toNat % 256 = 7 ∨ cw.toNat % 256 = 8 := by
  have hlisted := mt (legal_eq_false_iff cw).2 (by simp [h])
  omega

theorem payloadLength_of_illegal {cw : Word} (h : legal cw = false) : payloadLength cw = 0 := by
  simp [payloadLength, h]

/-- The table of R63, opcode by opcode. -/
theorem payloadLength_eq (cw : Word) : payloadLength cw =
    if legal cw = false then 0
    else if cw.toNat % 256 = 1 then cw.toNat / 256 % 256 + 1 + cw.toNat / 65536 % 256
    else if cw.toNat % 256 = 2 then 4
    else if cw.toNat % 256 = 3 ∨ cw.toNat % 256 = 4 then 16
    else if cw.toNat % 256 = 5 then cw.toNat / 256 % 256 + cw.toNat / 65536 % 256
    else if cw.toNat % 256 = 8 then (cw.toNat / 256 % 256 + 3) / 4
    else 0 := by
  cases hl : legal cw with
  | false => simp [payloadLength_of_illegal hl]
  | true =>
    simp only [payloadLength, hl, opField_toNat, aField_toNat, bField_toNat]
    rcases opcode_of_legal hl with h | h | h | h | h | h | h | h <;> simp [h]

/-! What the decoder rejects -/

theorem exists_whyIllegal {cw : Word} (h : legal cw = false) : ∃ reason, whyIllegal cw = some reason := by
  rw [← Option.ne_none_iff_exists', ne_eq, whyIllegal_eq_none]
  simp [h]

/-- On a legal word the decoder gives a whole command or waits for its payload. -/
theorem decode_ne_illegal {cw : Word} (h : legal cw = true) (ws after : List Word) (reason : IllegalReason) :
    decode (cw :: ws) ≠ .illegal reason after := by
  rw [decode_legal ((whyIllegal_eq_none cw).2 h)]
  cases operands cw ws <;> simp

theorem decode_eq_illegal_iff (cw : Word) (ws : List Word) :
    (∃ reason after, decode (cw :: ws) = .illegal reason after) ↔ legal cw = false := by
  cases hl : legal cw with
  | true => simp [decode_ne_illegal hl]
  | false =>
    obtain ⟨reason, hreason⟩ := exists_whyIllegal hl
    simp [decode_illegal hreason]

/-! Decoding undoes encoding -/

theorem encodedLegal : ∀ i : Instr, Laws.EncodedLegal.Statement i
  | .build key ctr nonce => Laws.EncodedLegal.build key ctr nonce
  | .qround a b c d => Laws.EncodedLegal.qround a b c d
  | .round p x => Laws.EncodedLegal.round p x
  | .blockfn x => Laws.EncodedLegal.blockfn x
  | .init key nonce => Laws.EncodedLegal.init key nonce
  | .ksCurrent => Laws.EncodedLegal.ksCurrent
  | .ksAdvance => Laws.EncodedLegal.ksAdvance
  | .xorChunk len chunk => Laws.EncodedLegal.xorChunk len chunk

/-- A count that fits its field is read back from it (R62). -/
theorem toNat_ofNat_of_le_255 {n : Nat} (h : n ≤ 255) : (BitVec.ofNat 8 n).toNat = n := by
  rw [BitVec.toNat_ofNat]; omega

/-- The decoder takes the operands of a well-formed command from its payload, and no word after it. -/
theorem operands_encode {i : Instr} (after : List Word) (h : i.wellFormed = true) :
    operands (commandWord i) (payload i ++ after) = some (i, after) := by
  cases i with
  | build key ctr nonce | init key nonce =>
    simp only [Instr.wellFormed, Bool.and_eq_true, decide_eq_true_eq] at h
    obtain ⟨hkey, hnonce⟩ := h
    simp [operands, commandWord, payload, -BitVec.toNat_ofNat, toNat_ofNat_of_le_255 hkey, toNat_ofNat_of_le_255 hnonce]
  | qround | blockfn | ksCurrent | ksAdvance => simp [operands, commandWord, payload]
  | round p x => cases p <;> simp [operands, commandWord, payload]
  | xorChunk len chunk =>
    simp only [Instr.wellFormed, Bool.and_eq_true, decide_eq_true_eq, beq_iff_eq] at h
    obtain ⟨⟨_, hlen⟩, hcount⟩ := h
    simp [operands, commandWord, payload, -BitVec.toNat_ofNat, toNat_ofNat_of_le_255 (hlen.trans (by decide)), hcount]

theorem decode_encode {i : Instr} (after : List Word) (h : i.wellFormed = true) :
    decode (encode i ++ after) = .command i after := by
  have hlegal := (whyIllegal_eq_none _).2 (encodedLegal i h).1
  rw [encode, List.cons_append, decode_legal hlegal, operands_encode after h]

/-! Every legal word with its payload is the encoding of a command -/

/-- The shapes of a legal command word, by opcode (R62, R64). -/
inductive LegalShape : Word → Prop where
  | build (b a : Byte) : LegalShape (cmdWord b a 1#8)
  | qround : LegalShape (cmdWord 0#8 0#8 2#8)
  | roundColumn : LegalShape (cmdWord 0#8 0#8 3#8)
  | roundDiagonal : LegalShape (cmdWord 0#8 1#8 3#8)
  | blockfn : LegalShape (cmdWord 0#8 0#8 4#8)
  | init (b a : Byte) : LegalShape (cmdWord b a 5#8)
  | ksCurrent : LegalShape (cmdWord 0#8 0#8 6#8)
  | ksAdvance : LegalShape (cmdWord 0#8 0#8 7#8)
  | xorChunk (a : Byte) : 1 ≤ a.toNat → a.toNat ≤ 64 → LegalShape (cmdWord 0#8 a 8#8)

theorem rsvField_of_legal {cw : Word} (h : legal cw = true) : rsvField cw = 0#8 := by
  simp only [legal, Bool.and_eq_true, beq_iff_eq] at h
  exact h.1

theorem legalShape_of_legal {cw : Word} (h : legal cw = true) : LegalShape cw := by
  have hop : opField cw = BitVec.ofNat 8 (cw.toNat % 256) := by simp [← opField_toNat]
  have hcw := cmdWord_fields cw (rsvField_of_legal h)
  have hfields := h
  rw [← hcw, Laws.legal_cmdWord] at hfields
  rw [hop] at hcw hfields
  rcases opcode_of_legal h with ho | ho | ho | ho | ho | ho | ho | ho <;> rw [ho] at hcw hfields <;>
    simp only [BitVec.reduceToNat, Bool.and_eq_true, Bool.or_eq_true, beq_iff_eq, decide_eq_true_eq] at hfields <;>
    rw [← hcw]
  · exact .build _ _
  · obtain ⟨ha, hb⟩ := hfields
    rw [ha, hb]; exact .qround
  · obtain ⟨hb, ha | ha⟩ := hfields
    · rw [ha, hb]; exact .roundColumn
    · rw [ha, hb]; exact .roundDiagonal
  · obtain ⟨ha, hb⟩ := hfields
    rw [ha, hb]; exact .blockfn
  · exact .init _ _
  · obtain ⟨ha, hb⟩ := hfields
    rw [ha, hb]; exact .ksCurrent
  · obtain ⟨ha, hb⟩ := hfields
    rw [ha, hb]; exact .ksAdvance
  · obtain ⟨hb, h1, h64⟩ := hfields
    rw [hb]; exact .xorChunk _ h1 h64

theorem exists_append_of_length_eq_add {ws : List Word} {m n : Nat} (h : ws.length = m + n) :
    ∃ us vs, ws = us ++ vs ∧ us.length = m ∧ vs.length = n :=
  ⟨ws.take m, ws.drop m, (List.take_append_drop m ws).symm, by simp [h], by simp [h]⟩

theorem exists_toList_eq {n : Nat} {ws : List Word} (h : ws.length = n) : ∃ x : Vector Word n, ws = x.toList :=
  ⟨⟨ws.toArray, h⟩, rfl⟩

/-- A legal word and `pl(cw)` payload words are the encoding of a command: the payload is cut into the operands in order. -/
theorem exists_encode_eq {cw : Word} {ps : List Word} (hl : legal cw = true) (hp : ps.length = payloadLength cw) :
    ∃ i, i.wellFormed = true ∧ encode i = cw :: ps := by
  cases legalShape_of_legal hl with
  | build b a =>
    have hp : ps.length = a.toNat + (b.toNat + 1) := by simp [hp, payloadLength, hl]; omega
    obtain ⟨key, tail, rfl, hkey, htail⟩ := exists_append_of_length_eq_add hp
    obtain ⟨ctr, nonce, rfl, hnonce⟩ := List.length_eq_succ_iff.1 htail
    exact ⟨.build key ctr nonce, by simp [Instr.wellFormed]; omega, by simp [encode, commandWord, payload, hkey, hnonce]⟩
  | qround =>
    obtain ⟨a, b, c, d, rfl⟩ := List.length_eq_four.1 hp
    exact ⟨.qround a b c d, rfl, rfl⟩
  | roundColumn =>
    obtain ⟨x, rfl⟩ := exists_toList_eq hp
    exact ⟨.round .column x, rfl, rfl⟩
  | roundDiagonal =>
    obtain ⟨x, rfl⟩ := exists_toList_eq hp
    exact ⟨.round .diagonal x, rfl, rfl⟩
  | blockfn =>
    obtain ⟨x, rfl⟩ := exists_toList_eq hp
    exact ⟨.blockfn x, rfl, rfl⟩
  | init b a =>
    have hp : ps.length = a.toNat + b.toNat := by simp [hp, payloadLength, hl]
    obtain ⟨key, nonce, rfl, hkey, hnonce⟩ := exists_append_of_length_eq_add hp
    exact ⟨.init key nonce, by simp [Instr.wellFormed]; omega, by simp [encode, commandWord, payload, hkey, hnonce]⟩
  | ksCurrent =>
    obtain rfl := List.length_eq_zero_iff.1 hp
    exact ⟨.ksCurrent, rfl, rfl⟩
  | ksAdvance =>
    obtain rfl := List.length_eq_zero_iff.1 hp
    exact ⟨.ksAdvance, rfl, rfl⟩
  | xorChunk a h1 h64 =>
    have hp : ps.length = (a.toNat + 3) / 4 := by simp [hp, payloadLength, hl]
    exact ⟨.xorChunk a.toNat ps, by simp [Instr.wellFormed, h1, h64, hp], by simp [encode, commandWord, payload]⟩

/-! What a command word does at the port -/

namespace Machine

theorem illegalCommand_faulted {s : State} (h : s.flt = true) : illegalCommand s = refuseFaulted s :=
  unlessFaulted_faulted h

theorem illegalCommand_unfaulted {s : State} (h : s.flt = false) : illegalCommand s = raise .illegalCommand s :=
  unlessFaulted_ok h

@[simp] theorem illegalCommand_input (s : State) : (illegalCommand s).input = s.input := by
  cases hf : s.flt with
  | true => rw [illegalCommand_faulted hf, refuseFaulted_input]
  | false => rw [illegalCommand_unfaulted hf, raise_input]

@[simp] theorem illegalCommand_emitted (s : State) : (illegalCommand s).emitted = s.emitted := by
  cases hf : s.flt with
  | true => rw [illegalCommand_faulted hf, refuseFaulted_emitted]
  | false => rw [illegalCommand_unfaulted hf, raise_emitted]

/-- The answer to an illegal word (R222, R224). -/
theorem illegalCommand_response (s : State) :
    (illegalCommand s).response = s.response ++ [if s.flt then 0#8 ++ s.fcode ++ 0x0004#16 else 0x00000002] := by
  cases hf : s.flt with
  | true => simp [illegalCommand_faulted hf, responseWord_faulted]
  | false => rw [illegalCommand_unfaulted hf, raise_response]; rfl

/-- An illegal word is answered alone, whatever words come after it (R222). -/
theorem step_illegal {s : State} {cw : Word} {rest : List PortEvent} (hr : s.response = []) (hin : s.input = .word cw :: rest)
    (hl : legal cw = false) : step s = .next (illegalCommand { s with input := rest }) := by
  obtain ⟨reason, hreason⟩ := exists_whyIllegal hl
  rw [step, nextAction_illegal hr hin hreason]

/-- A legal word that arrives with its payload is run as the command it encodes (R60, R63). -/
theorem step_legal {s : State} {cw : Word} {ps : List Word} {rest : List PortEvent} (h : s.receives cw ps rest)
    (hl : legal cw = true) : ∃ i, encode i = cw :: ps ∧ step s = exec i { s with input := rest } := by
  obtain ⟨hr, hin, hp⟩ := h
  obtain ⟨i, hwf, henc⟩ := exists_encode_eq hl hp
  have hdecode : decode (cw :: (ps ++ arrivingWords rest)) = .command i (arrivingWords rest) := by
    rw [← List.cons_append, ← henc, decode_encode _ hwf]
  exact ⟨i, henc, by rw [step, nextAction_command hr hin hp hdecode]⟩

/-- Settles O4: the decoder's clause by whether the word is legal, R64's list as arithmetic, and the step on an illegal word. -/
theorem illegalWordsAreExactlyThoseOfTheSpec : Obligations.IllegalWordsAreExactlyThoseOfTheSpec := by
  intro cw
  refine ⟨decode_eq_illegal_iff cw, legal_eq_false_iff cw, fun s rest hf hr hin hl => ?_⟩
  exact (step_illegal hr hin hl).trans (congrArg _ (illegalCommand_unfaulted hf))

/-- Settles O5: R63's table as arithmetic; an illegal word has no payload to take, and a legal one is run as the command whose
encoding arrived. -/
theorem everyCommandWordTakesItsPayloadLength : Obligations.EveryCommandWordTakesItsPayloadLength := by
  refine ⟨payloadLength_eq, fun s cw ps rest h => ?_⟩
  cases hl : legal cw with
  | false =>
    obtain ⟨hr, hin, hp⟩ := h
    obtain rfl := List.length_eq_zero_iff.1 (hp.trans (payloadLength_of_illegal hl))
    exact ⟨⟨_, step_illegal hr hin hl, illegalCommand_input _⟩, by simp⟩
  | true =>
    obtain ⟨i, henc, hstep⟩ := step_legal h hl
    obtain ⟨t, hexec, hinput⟩ := exec_next i { s with input := rest }
    obtain ⟨hword, hpayload⟩ := List.cons.inj henc
    exact ⟨⟨t, hstep.trans hexec, hinput⟩, fun _ => ⟨i, hword, hpayload, hstep⟩⟩

end Machine

end Sys2Proof
end

section
/-! PROOFS. Responses (spec/30_encoding.md, R65): the fields of a response word, how many payload words an `OK` response carries,
and the format of every answer to a command word. -/

namespace Sys2Proof.Machine

open Sys2Proof

/-! The fields of a response word -/

/-- Bits 31:24 of a response word are zero. -/
@[simp] theorem responseWord_toNat_lt (cause nout status : Byte) : (responseWord cause nout status).toNat < 16777216 := by
  rw [responseWord_toNat]; omega

@[simp] theorem responseWord_toNat_cause (cause nout status : Byte) :
    (responseWord cause nout status).toNat / 65536 % 256 = cause.toNat := by
  rw [responseWord_toNat]; omega

@[simp] theorem responseWord_toNat_nout (cause nout status : Byte) :
    (responseWord cause nout status).toNat / 256 % 256 = nout.toNat := by
  rw [responseWord_toNat]; omega

/-- The codes of the three errors lie between those of `OK` and `FAULTED` (R66). -/
theorem Err.code_toNat_lt_four (e : Err) : e.code.toNat < 4 := by
  cases e <;> decide

/-! The payload of an `OK` response -/

/-- If the response that `t` has after those of `s` has status `OK`, it carries `n` payload words. -/
def OkCarries (n : Nat) (s t : State) : Prop :=
  ∀ w out, t.response = s.response ++ w :: out → w.toNat % 256 = 0 → out.length = n

theorem okCarries_refuseFaulted (n : Nat) (s : State) : OkCarries n s (refuseFaulted s) := by
  intro w out h hw
  obtain ⟨rfl, rfl⟩ : responseWord s.fcode 0x00 0x04 = w ∧ [] = out := by simpa using h
  simp at hw

theorem okCarries_raise (n : Nat) (e : Err) (s : State) : OkCarries n s (raise e s) := by
  intro w out h hw
  obtain ⟨rfl, rfl⟩ : responseWord 0x00 0x00 e.code = w ∧ [] = out := by simpa using h
  simp [e.code_toNat_ne_zero] at hw

theorem okCarries_respond {out : List Word} {s u : State} (hu : u.response = s.response) :
    OkCarries out.length s (respond .ok out u) := by
  intro w out' h _
  obtain ⟨_, rfl⟩ := by simpa [hu] using h
  rfl

theorem OkCarries.unlessFaulted {n : Nat} {s body : State} (h : OkCarries n s body) :
    OkCarries n s (unlessFaulted s body) := by
  cases hf : s.flt with
  | true => rw [unlessFaulted_faulted hf]; exact okCarries_refuseFaulted n s
  | false => rwa [unlessFaulted_ok hf]

theorem okCarries_requireSession {n : Nat} {s : State} {body : Session → State} (h : ∀ x, OkCarries n s (body x)) :
    OkCarries n s (requireSession s body) := by
  cases hc : s.cfg with
  | false => rw [requireSession_none hc]; exact okCarries_raise n _ s
  | true => rw [requireSession_some hc]; exact h _

/-- A command that responds with the words of a block. -/
theorem okCarries_block (x : Block) {s u : State} (hu : u.response = s.response) :
    OkCarries 16 s (respond .ok x.toList u) := by
  simpa using okCarries_respond (out := x.toList) hu

/-- The payload of an `OK` response is as long as the opcode fixes it (R65). -/
theorem exec_okCarries {i : Instr} {s t : State} (h : exec i s = .next t) : OkCarries (okPayload i) s t := by
  cases i <;> obtain rfl := Host.Outcome.next.inj h <;> apply OkCarries.unlessFaulted
  case build key ctr nonce =>
    cases build s.sigma key ctr nonce with
    | none => exact okCarries_raise _ _ s
    | some x => exact okCarries_block x rfl
  case qround => exact okCarries_respond rfl
  case round => exact okCarries_block _ rfl
  case blockfn => exact okCarries_block _ rfl
  case init key nonce =>
    cases shaped Config.keyWords key with
    | none => exact okCarries_raise _ _ s
    | some k =>
      cases shaped Config.nonceWords nonce with
      | none => exact okCarries_raise _ _ s
      | some n => exact okCarries_respond rfl
  case ksCurrent => exact okCarries_requireSession fun _ => okCarries_block _ rfl
  case ksAdvance => exact okCarries_requireSession fun _ => okCarries_respond rfl
  case xorChunk => exact okCarries_requireSession fun _ => okCarries_block _ rfl

theorem okPayload_le_16 (i : Instr) : okPayload i ≤ 16 := by
  cases i <;> simp [okPayload]

/-! The format of every answer -/

/-- However a command word is answered, the response has the format of R65. -/
theorem Answered.format {n : Nat} {s t : State} (h : Answered s t) (hok : OkCarries n s t) (hn : n ≤ 255) :
    ∃ w out, t.response = s.response ++ w :: out ∧
      w.toNat / 2 ^ 24 = 0 ∧
      w.toNat / 2 ^ 8 % 256 = out.length ∧
      w.toNat % 256 ≤ 4 ∧
      (w.toNat % 256 = 0 → out.length = n) ∧
      (w.toNat % 256 ≠ 0 → out = []) ∧
      w.toNat / 2 ^ 16 % 256 = if w.toNat % 256 = 4 then t.fcode.toNat else 0 := by
  cases h with
  | refused => exact ⟨_, _, refuseFaulted_response s, by simp⟩
  | raised e =>
    have hlt := e.code_toNat_lt_four
    exact ⟨_, _, raise_response e s, by simp [e.code_toNat_ne_zero, hlt.le, hlt.ne]⟩
  | completed out u _ _ _ hu =>
    have hresponse : (respond .ok out u).response =
        s.response ++ responseWord 0x00 (BitVec.ofNat 8 out.length) 0x00 :: out := by rw [respond_response, hu]; rfl
    obtain rfl : out.length = n := hok _ _ hresponse (by simp)
    exact ⟨_, _, hresponse, by simp [-BitVec.toNat_ofNat, toNat_ofNat_of_le_255 hn]⟩

/-- Settles O14: a command is answered in one of three ways, each of the format, and its opcode fixes an `OK` payload. -/
theorem everyCommandGivesOneResponseOfTheFormat : Obligations.EveryCommandGivesOneResponseOfTheFormat := by
  refine ⟨fun i s t h => ?_, fun s => ⟨illegalCommand_emitted s, illegalCommand_response s⟩⟩
  obtain ⟨_, _, hemitted⟩ := exec_keeps_sigma_input_emitted h
  exact ⟨hemitted, (exec_answered h).format (exec_okCarries h) ((okPayload_le_16 i).trans (by decide))⟩

end Sys2Proof.Machine
end

section
/-! PROOFS. The state builder unit (spec/40_state_builder.md): command words with two counts, what `build` gives, the answers of a
core as whole next states, and the command `BUILD`. -/

namespace Sys2Proof

/-! A command word as a number (R61, R64) -/

/-- The word of R69 from its fields. -/
theorem cmdWord_eq_ofNat (b a op : Byte) :
    cmdWord b a op = BitVec.ofNat 32 (op.toNat + 2 ^ 8 * a.toNat + 2 ^ 16 * b.toNat) := by
  rw [← cmdWord_toNat, BitVec.ofNat_toNat, BitVec.setWidth_eq]

/-- A command with counts for both fields needs only `RSV` to be 0 (R62, R64). -/
theorem legal_iff_of_counted {cw : Word} (hop : cw.toNat % 256 = 1 ∨ cw.toNat % 256 = 5) :
    legal cw = true ↔ cw.toNat / 2 ^ 24 = 0 := by
  rw [← Bool.not_eq_false, legal_eq_false_iff]
  omega

namespace Machine

/-! The function `build` (R100 to R102) -/

theorem build_toList (sigma : Vector Word 4) (k : Vector Word 8) (ctr : Word) (n : Vector Word 3) :
    build sigma k.toList ctr n.toList = some (layout sigma k ctr n) := by
  simp [build]

/-- `build` fails exactly on a wrong word count (R102). -/
theorem build_eq_none_iff {sigma : Vector Word 4} {key : List Word} {ctr : Word} {nonce : List Word} :
    build sigma key ctr nonce = none ↔ key.length ≠ 8 ∨ nonce.length ≠ 3 := by
  rw [← shaped_eq_none, ← shaped_eq_none, build]
  cases shaped Config.keyWords key with
  | none => simp
  | some k => cases shaped Config.nonceWords nonce <;> simp

/-- What `build` gives is the layout of operands of the right shape (R101). -/
theorem eq_layout_of_build_eq_some {sigma : Vector Word 4} {key : List Word} {ctr : Word} {nonce : List Word} {x : Block}
    (h : build sigma key ctr nonce = some x) :
    ∃ k n, key = Vector.toList k ∧ nonce = Vector.toList n ∧ x = layout sigma k ctr n := by
  unfold build at h
  split at h
  case h_1 k n hk hn => exact ⟨k, n, shaped_eq_some hk, shaped_eq_some hn, (Option.some.inj h).symm⟩
  case h_2 => cases h

theorem toList_eq_ofFn {m : Nat} (x : Vector Word m) : x.toList = List.ofFn fun i => x[i.val] := by
  rw [← Vector.toList_ofFn, Vector.ofFn_getElem]

/-- The words of the layout in order (R101). -/
theorem layout_toList (sigma : Vector Word 4) (k : Vector Word 8) (ctr : Word) (n : Vector Word 3) :
    (layout sigma k ctr n).toList = sigma.toList ++ k.toList ++ [ctr] ++ n.toList := by
  rw [toList_eq_ofFn sigma, toList_eq_ofFn k, toList_eq_ofFn n]
  rfl

/-- Settles O27: a block that `build` gives is a layout, whose words are read off in each of its parts. -/
theorem buildLaysOutTheState : Obligations.BuildLaysOutTheState := by
  intro sigma key ctr nonce
  refine ⟨build_eq_none_iff, fun x h => ?_⟩
  obtain ⟨k, n, rfl, rfl, rfl⟩ := eq_layout_of_build_eq_some h
  refine ⟨fun i => ?_, fun i => ?_, rfl, fun i => ?_⟩
  · match i with | 0 | 1 | 2 | 3 => rfl
  · rw [Vector.getElem?_toList]
    match i with | 0 | 1 | 2 | 3 | 4 | 5 | 6 | 7 => rfl
  · rw [Vector.getElem?_toList]
    match i with | 0 | 1 | 2 => rfl

/-! Whole next states (R65, R224, R226) -/

/-- A faulted core refuses every command with `FAULTED` and the code of its error, and writes no register (R224). -/
theorem exec_faulted (i : Instr) {s : State} (hf : s.flt = true) :
    exec i s = .next { s with response := s.response ++ [0#8 ++ s.fcode ++ 0x0004#16] } := by
  obtain ⟨t, h, _⟩ := exec_next i s
  obtain rfl := (exec_answered h).eq_refuseFaulted hf
  rw [h, ← responseWord_faulted]
  rfl

/-- An error latches the core with its code and answers the code alone (R226). -/
theorem raise_eq (e : Err) (s : State) : raise e s =
    { s with flt := true, fcode := e.code, response := s.response ++ [e.code.setWidth 32] } := by
  have hword : responseWord 0x00 0x00 e.code = e.code.setWidth 32 := by cases e <;> decide
  rw [← hword]
  rfl

/-- The response that carries a block has 16 payload words (R65). -/
theorem respond_ok_block (x : Block) (s : State) :
    respond .ok x.toList s = { s with response := s.response ++ 0x00001000 :: x.toList } := by
  have hword : responseWord 0x00 16#8 0x00 = 0x00001000 := by decide
  rw [respond, Vector.length_toList, ← hword]
  rfl

/-- Settles O34: the word by its fields, and on an unfaulted core the answer by what `build` gives. -/
theorem buildCommandReturnsTheState : Obligations.BuildCommandReturnsTheState := by
  refine ⟨fun cw hop => legal_iff_of_counted (.inl hop), fun key ctr nonce s => ⟨fun hk hn => ?_, exec_faulted _,
    fun hf hcount => ?_, fun hf k n hk hn => ?_⟩⟩
  · rw [encode, commandWord, cmdWord_eq_ofNat, toNat_ofNat_of_le_255 hk, toNat_ofNat_of_le_255 hn]
    simp [payload]
  · rw [exec, execBuild, unlessFaulted_ok hf, build_eq_none_iff.2 hcount]
    exact congrArg _ (raise_eq .configError s)
  · subst hk hn
    rw [exec, execBuild, unlessFaulted_ok hf, build_toList, ← layout_toList]
    exact congrArg _ (respond_ok_block _ s)

end Machine

end Sys2Proof
end

section
/-! PROOFS. The quarter round unit (spec/41_quarter_round.md): the quarter round at four indices, quarter rounds run one after
another at disjoint groups of indices, the two rounds, and the commands `QROUND` and `ROUND`. -/

namespace Sys2Proof

/-! Command words without operand fields, and those of `ROUND` (R62, R64) -/

/-- A command without operand fields has one legal word, its opcode alone (R64). -/
theorem legal_iff_of_opcode_alone {cw : Word} {op : Nat} (hcw : cw.toNat % 256 = op)
    (hop : op = 2 ∨ op = 4 ∨ op = 6 ∨ op = 7) : legal cw = true ↔ cw = BitVec.ofNat 32 op := by
  rw [← Bool.not_eq_false, legal_eq_false_iff, ← BitVec.toNat_inj, BitVec.toNat_ofNat]
  omega

/-- `ROUND` has two legal words, one for each pattern (R62, R64). -/
theorem legal_iff_of_round {cw : Word} (hop : cw.toNat % 256 = 3) :
    legal cw = true ↔ cw = 0x00000003 ∨ cw = 0x00000103 := by
  simp only [← Bool.not_eq_false, legal_eq_false_iff, ← BitVec.toNat_inj, BitVec.reduceToNat]
  omega

namespace Machine

/-! The quarter round (R120) -/

/-- Settles O20: the eight intermediate words are determined by their equations, and the model's assignments are those. -/
theorem quarterRoundIsTheFourSteps : Obligations.QuarterRoundIsTheFourSteps := by
  intro a b c d a1 d1 c1 b1 a2 d2 c2 b2 ha1 hd1 hc1 hb1 ha2 hd2 hc2 hb2
  subst ha1 hd1 hc1 hb1 ha2 hd2 hc2 hb2
  rfl

/-- The zero words are a fixed point of the quarter round. -/
theorem quarterRound_zero : quarterRound 0#32 0#32 0#32 0#32 = (0#32, 0#32, 0#32, 0#32) := by decide

/-! The quarter round at four indices (R122) -/

/-- The four indices of one quarter round. -/
abbrev Group := Fin 16 × Fin 16 × Fin 16 × Fin 16

/-- The indices of a group in order. -/
def Group.indices (g : Group) : List (Fin 16) := [g.1, g.2.1, g.2.2.1, g.2.2.2]

/-- The words of a block at a group's indices. -/
def wordsAt (x : Block) (g : Group) : Word × Word × Word × Word := (x[g.1], x[g.2.1], x[g.2.2.1], x[g.2.2.2])

/-- The quarter round of a tuple of words. -/
def quarterRoundOf (w : Word × Word × Word × Word) : Word × Word × Word × Word := quarterRound w.1 w.2.1 w.2.2.1 w.2.2.2

/-- `qrAt` at a group of indices. -/
def qrAtGroup (x : Block) (g : Group) : Block := qrAt x g.1 g.2.1 g.2.2.1 g.2.2.2

theorem wordsAt_eq_iff {x y : Block} {g : Group} : wordsAt x g = wordsAt y g ↔ ∀ j ∈ g.indices, x[j] = y[j] := by
  simp [wordsAt, Group.indices]

/-- The quarter round at different indices writes its results there, each where its operand stood. -/
theorem wordsAt_qrAtGroup (x : Block) {g : Group} (hg : g.indices.Nodup) :
    wordsAt (qrAtGroup x g) g = quarterRoundOf (wordsAt x g) := by
  obtain ⟨ia, ib, ic, id⟩ := g
  simp only [Group.indices, List.nodup_cons, List.mem_cons, List.not_mem_nil, or_false, not_or, Fin.ext_iff] at hg
  obtain ⟨⟨hab, hac, had⟩, ⟨hbc, hbd⟩, hcd, -⟩ := hg
  simp [wordsAt, qrAtGroup, qrAt, quarterRoundOf, hab, hac, had, hbc, hbd, hcd, Ne.symm]

/-- The quarter round leaves every word outside its group. -/
theorem qrAtGroup_getElem_of_notMem (x : Block) {g : Group} {j : Fin 16} (hj : j ∉ g.indices) : (qrAtGroup x g)[j] = x[j] := by
  simp only [Group.indices, List.mem_cons, List.not_mem_nil, or_false, not_or, Fin.ext_iff] at hj
  obtain ⟨ha, hb, hc, hd⟩ := hj
  simp [qrAtGroup, qrAt, Ne.symm ha, Ne.symm hb, Ne.symm hc, Ne.symm hd]

/-- Settles O22: the group is the tuple of the four indices. -/
theorem quarterRoundAtFourIndicesLeavesTheOthers : Obligations.QuarterRoundAtFourIndicesLeavesTheOthers :=
  fun x ia ib ic id hg =>
    ⟨wordsAt_qrAtGroup x (g := (ia, ib, ic, id)) hg, fun _ hj => qrAtGroup_getElem_of_notMem x (g := (ia, ib, ic, id)) hj⟩

/-! Quarter rounds one after another (R125) -/

/-- The quarter rounds at the groups of a list, in order. -/
def qrAtGroups (gs : List Group) (x : Block) : Block := gs.foldl qrAtGroup x

theorem qrAtGroups_getElem_of_notMem (gs : List Group) (x : Block) {j : Fin 16} (hj : j ∉ gs.flatMap Group.indices) :
    (qrAtGroups gs x)[j] = x[j] := by
  induction gs generalizing x with
  | nil => rfl
  | cons g gs ih =>
    rw [List.flatMap_cons, List.mem_append, not_or] at hj
    obtain ⟨hg, hgs⟩ := hj
    exact (ih (qrAtGroup x g) hgs).trans (qrAtGroup_getElem_of_notMem x hg)

/-- At disjoint groups each quarter round reads the words that stood there at the start, and its results stay. -/
theorem wordsAt_qrAtGroups {gs : List Group} (x : Block) (hgs : (gs.flatMap Group.indices).Nodup) {g : Group} (hg : g ∈ gs) :
    wordsAt (qrAtGroups gs x) g = quarterRoundOf (wordsAt x g) := by
  induction gs generalizing x with
  | nil => cases hg
  | cons g' gs ih =>
    obtain ⟨hg', hgs, hdisjoint⟩ := List.nodup_append'.1 hgs
    have hstart : wordsAt (qrAtGroups (g' :: gs) x) g = wordsAt (qrAtGroups gs (qrAtGroup x g')) g := rfl
    rcases List.mem_cons.1 hg with rfl | hg
    · have hkept : wordsAt (qrAtGroups gs (qrAtGroup x g)) g = wordsAt (qrAtGroup x g) g :=
        wordsAt_eq_iff.2 fun j hj => qrAtGroups_getElem_of_notMem gs _ (hdisjoint hj)
      rw [hstart, hkept, wordsAt_qrAtGroup x hg']
    · have hunread : wordsAt (qrAtGroup x g') g = wordsAt x g :=
        wordsAt_eq_iff.2 fun j hj =>
          qrAtGroup_getElem_of_notMem x fun hj' => hdisjoint hj' (List.mem_flatMap.2 ⟨g, hg, hj⟩)
      rw [hstart, ih _ hgs hg, hunread]

/-- Groups that partition the 16 indices can be taken in any order: the words at each group are the same, and every word is in
one. -/
theorem qrAtGroups_perm {gs hs : List Group} (x : Block) (hperm : gs.Perm hs)
    (hcover : (hs.flatMap Group.indices).Perm (List.finRange 16)) : qrAtGroups gs x = qrAtGroups hs x := by
  have hnodup : (hs.flatMap Group.indices).Nodup := hcover.nodup_iff.2 (List.nodup_finRange 16)
  have hnodup' : (gs.flatMap Group.indices).Nodup := (hperm.flatMap_right _).nodup_iff.2 hnodup
  apply Vector.ext
  intro j hj
  obtain ⟨g, hg, hjg⟩ := List.mem_flatMap.1 (hcover.mem_iff.2 (List.mem_finRange ⟨j, hj⟩))
  have hwords : wordsAt (qrAtGroups gs x) g = wordsAt (qrAtGroups hs x) g := by
    rw [wordsAt_qrAtGroups x hnodup' (hperm.mem_iff.2 hg), wordsAt_qrAtGroups x hnodup hg]
  exact wordsAt_eq_iff.1 hwords _ hjg

/-! The two rounds (R123, R124) -/

/-- The four columns of the matrix (R123). -/
def columns : List Group := [(0, 4, 8, 12), (1, 5, 9, 13), (2, 6, 10, 14), (3, 7, 11, 15)]

/-- The four diagonals of the matrix (R124). -/
def diagonals : List Group := [(0, 5, 10, 15), (1, 6, 11, 12), (2, 7, 8, 13), (3, 4, 9, 14)]

theorem qrAtGroups_columns (x : Block) : qrAtGroups columns x = columnRound x := rfl

theorem qrAtGroups_diagonals (x : Block) : qrAtGroups diagonals x = diagonalRound x := rfl

theorem columns_cover : (columns.flatMap Group.indices).Perm (List.finRange 16) := by decide

theorem diagonals_cover : (diagonals.flatMap Group.indices).Perm (List.finRange 16) := by decide

/-- Settles O23: the columns are disjoint, and so are the diagonals. -/
theorem roundsActOnColumnsAndDiagonals : Obligations.RoundsActOnColumnsAndDiagonals := by
  intro x
  have hnodup := List.nodup_finRange 16
  exact ⟨fun _ hg => wordsAt_qrAtGroups x (columns_cover.nodup_iff.2 hnodup) hg,
    fun _ hg => wordsAt_qrAtGroups x (diagonals_cover.nodup_iff.2 hnodup) hg⟩

/-- Settles O24: the columns partition the indices, and so do the diagonals. -/
theorem quarterRoundsOfARoundRunInAnyOrder : Obligations.QuarterRoundsOfARoundRunInAnyOrder := by
  intro x gs
  refine ⟨fun hperm => ⟨(hperm.flatMap_right _).trans columns_cover, ?_⟩,
    fun hperm => ⟨(hperm.flatMap_right _).trans diagonals_cover, ?_⟩⟩
  · exact (qrAtGroups_perm x hperm columns_cover).trans (qrAtGroups_columns x)
  · exact (qrAtGroups_perm x hperm diagonals_cover).trans (qrAtGroups_diagonals x)

/-! The zero state -/

theorem qrAtGroups_zero (gs : List Group) : qrAtGroups gs (Vector.replicate 16 0) = Vector.replicate 16 0 := by
  have hgroup (g : Group) : qrAtGroup (Vector.replicate 16 0) g = Vector.replicate 16 0 := by
    simp [qrAtGroup, qrAt, quarterRound_zero]
  induction gs with
  | nil => rfl
  | cons g gs ih => rw [qrAtGroups, List.foldl_cons, hgroup]; exact ih

theorem columnRound_zero : columnRound (Vector.replicate 16 0) = Vector.replicate 16 0 := qrAtGroups_zero columns

theorem diagonalRound_zero : diagonalRound (Vector.replicate 16 0) = Vector.replicate 16 0 := qrAtGroups_zero diagonals

/-! The commands (R126, R127) -/

/-- The response of `QROUND` has four payload words (R65). -/
theorem respond_ok_four (a b c d : Word) (s : State) : respond .ok [a, b, c, d] s =
    { s with response := s.response ++ [0x00000400, a, b, c, d] } := by
  have hword : responseWord 0x00 4#8 0x00 = 0x00000400 := by decide
  rw [← hword]
  rfl

theorem exec_qround_unfaulted {a b c d a' b' c' d' : Word} {s : State} (hf : s.flt = false)
    (hq : quarterRound a b c d = (a', b', c', d')) :
    exec (.qround a b c d) s = .next { s with response := s.response ++ [0x00000400, a', b', c', d'] } := by
  rw [exec, execQround, unlessFaulted_ok hf, hq, respond_ok_four]

theorem exec_round_unfaulted (p : RoundPattern) (x : Block) {s : State} (hf : s.flt = false) :
    exec (.round p x) s = .next { s with response := s.response ++ 0x00001000 :: (roundOf p x).toList } := by
  rw [exec, execRound, unlessFaulted_ok hf, respond_ok_block]

/-- Settles O35: the word is the opcode alone, and on an unfaulted core the answer is the quarter round. -/
theorem qroundCommandReturnsTheQuarterRound : Obligations.QroundCommandReturnsTheQuarterRound :=
  ⟨fun _ hop => legal_iff_of_opcode_alone hop (.inl rfl), quarterRound_zero, by decide, fun _ _ _ _ _ =>
    ⟨rfl, exec_faulted _, fun hf _ _ _ _ hq => exec_qround_unfaulted hf hq⟩⟩

/-- Settles O36: the word is one of two by the pattern, and on an unfaulted core the answer is the round it selects. -/
theorem roundCommandReturnsTheRound : Obligations.RoundCommandReturnsTheRound :=
  ⟨fun _ hop => legal_iff_of_round hop, columnRound_zero, diagonalRound_zero, fun x _ =>
    ⟨rfl, rfl, fun hf _ => exec_faulted _ hf, exec_round_unfaulted .column x, exec_round_unfaulted .diagonal x⟩⟩

end Machine

end Sys2Proof
end

section
/-! PROOFS. The block function unit (spec/42_block_function.md): the 20 rounds in order, and the command `BLOCKFN`. -/

namespace Sys2Proof.Machine

open Sys2Proof

/-- The first `n` rounds are a left fold over their numbers: the recursion runs the last round last, on the result of those
before it (R143). -/
theorem firstRounds_eq_foldl (n : Nat) (x : Block) :
    firstRounds n x = (List.range n).foldl (fun y k => roundNumber (k + 1) y) x := by
  induction n with
  | zero => rfl
  | succ n ih => rw [firstRounds, ih, List.range_succ, List.foldl_append, List.foldl_cons, List.foldl_nil]

/-- Settles O25: the fold over the first 20 round numbers, with each round chosen by its parity. -/
theorem blockFunctionRunsTwentyAlternatingRounds : Obligations.BlockFunctionRunsTwentyAlternatingRounds :=
  firstRounds_eq_foldl 20

/-- An unfaulted core answers `BLOCKFN` with the rounds alone, without feed-forward, and writes no register (R145). -/
theorem exec_blockfn_unfaulted (x : Block) {s : State} (hf : s.flt = false) :
    exec (.blockfn x) s = .next { s with response := s.response ++ 0x00001000 :: (run x).toList } := by
  rw [exec, execBlockfn, unlessFaulted_ok hf, respond_ok_block]

/-- Settles O37: the word is the opcode alone, and on an unfaulted core the answer is the 20 rounds of O25. -/
theorem blockfnCommandReturnsTheTwentyRounds : Obligations.BlockfnCommandReturnsTheTwentyRounds := by
  refine ⟨fun _ hop => legal_iff_of_opcode_alone hop (.inr (.inl rfl)), fun x s => ⟨rfl, exec_faulted _, fun hf => ?_⟩⟩
  rw [← blockFunctionRunsTwentyAlternatingRounds]
  exact exec_blockfn_unfaulted x hf

end Sys2Proof.Machine
end

section
/-! PROOFS. The keystream generator unit (spec/43_keystream_generator.md): feed-forward and the bytes of a block, the commands
`INIT`, `KS_CURRENT` and `KS_ADVANCE`, and the counter after any number of commands that advance the session. -/

namespace Sys2Proof.Machine

open Sys2Proof

/-! Feed-forward and serialisation (R161, R162) -/

theorem feedforward_getElem (x : Block) (i : Fin 16) : (feedforward x)[i] = (run x)[i] + x[i] := by
  simp [feedforward]

/-- Settles O28: word addition in the model is addition modulo 2^32. -/
theorem feedforwardAddsTheInput : Obligations.FeedforwardAddsTheInput := by
  intro x i
  rw [feedforward_getElem, BitVec.toNat_add]

/-- The words of a feed-forward block in order: the word-wise sum of the rounds' output and their input. -/
theorem feedforward_toList (x : Block) : (feedforward x).toList = List.zipWith (· + ·) (run x).toList x.toList := by
  apply List.ext_getElem
  · simp
  · simp [feedforward]

/-- Settles O30: byte `4i + j` of the unpacked words comes from word `(4i + j) div 4 = i`, at the place `(4i + j) mod 4 = j`. -/
theorem serialisedByteIsTheWordsByte : Obligations.SerialisedByteIsTheWordsByte := by
  intro ks
  refine ⟨by simp [serialize], fun i j => ?_⟩
  have hin : 4 * i.val + j.val < 4 * ks.toList.length := by rw [Vector.length_toList]; omega
  have hword : (4 * i.val + j.val) / 4 = i.val := by omega
  have hplace : (4 * i.val + j.val) % 4 = j.val := by omega
  rw [serialize, unpackWords_getElem? _ _ hin, hword, hplace]
  simp

/-! Whole next states of the session commands (R65, R165 to R167, R223) -/

/-- The response that carries no payload is one word of zeros (R65). -/
theorem respond_ok_nil (s : State) : respond .ok [] s = { s with response := s.response ++ [0x00000000] } := by
  have hword : responseWord 0x00 0#8 0x00 = 0x00000000 := by decide
  rw [← hword]
  rfl

/-- On an unfaulted core without a session, a command that needs one raises `NOT_CONFIGURED`, whatever it would do (R223). -/
theorem requireSession_unfaulted_none {s : State} (body : Session → State) (hf : s.flt = false) (hc : s.cfg = false) :
    unlessFaulted s (requireSession s body) =
      { s with flt := true, fcode := 0x03, response := s.response ++ [0x00000003] } := by
  rw [unlessFaulted_ok hf, requireSession_none hc]
  exact raise_eq .notConfigured s

/-- An unfaulted core that gets a key and a nonce of the right shape starts their session at counter 0, whatever session it had
(R165). -/
theorem exec_init_unfaulted (k : Vector Word 8) (n : Vector Word 3) {s : State} (hf : s.flt = false) :
    exec (.init k.toList n.toList) s = .next (respond .ok [] (startSession k n s)) := by
  rw [exec, execInit, unlessFaulted_ok hf, shaped_toList, shaped_toList]

/-- A wrong word count is an error of the whole command: no part of the session is written (R165). -/
theorem exec_init_wrong_count {key nonce : List Word} {s : State} (hf : s.flt = false)
    (hcount : key.length ≠ 8 ∨ nonce.length ≠ 3) : exec (.init key nonce) s = .next (raise .configError s) := by
  rw [exec, execInit, unlessFaulted_ok hf]
  rcases hcount with hk | hn
  · rw [shaped_eq_none.2 hk]
  · rw [shaped_eq_none.2 hn]
    cases shaped Config.keyWords key <;> rfl

/-- Settles O38: the word by its fields, and on an unfaulted core the answer by whether the counts are 8 and 3. -/
theorem initCommandStartsTheSession : Obligations.InitCommandStartsTheSession := by
  refine ⟨fun cw hop => legal_iff_of_counted (.inr hop), fun key nonce s => ⟨fun hk hn => ?_, exec_faulted _,
    fun hf hcount => ?_, fun hf k n hk hn => ?_⟩⟩
  · rw [encode, commandWord, cmdWord_eq_ofNat, toNat_ofNat_of_le_255 hk, toNat_ofNat_of_le_255 hn]
    rfl
  · rw [exec_init_wrong_count hf hcount]
    exact congrArg _ (raise_eq .configError s)
  · subst hk hn
    rw [exec_init_unfaulted k n hf]
    exact congrArg _ (respond_ok_nil _)

/-- Settles O39: the word is the opcode alone; without a session the answer is the error, and with one it is the feed-forward of
the state that `build` gives, as words and as bytes. -/
theorem ksCurrentCommandReturnsTheBlock : Obligations.KsCurrentCommandReturnsTheBlock := by
  refine ⟨fun _ hop => legal_iff_of_opcode_alone hop (.inr (.inr (.inl rfl))), rfl, fun s => ⟨exec_faulted _,
    fun hf hc => congrArg _ (requireSession_unfaulted_none _ hf hc), fun hf hc x hx => ?_⟩⟩
  obtain rfl : layout s.sigma s.key s.ctr s.nonce = x := Option.some.inj ((build_toList ..).symm.trans hx)
  rw [← feedforward_toList, exec_ksCurrent_of_session hf (session_some hc)]
  exact ⟨congrArg _ (respond_ok_block _ s), rfl⟩

/-- An unfaulted core with a session advances its counter at `KS_ADVANCE` and answers without a payload (R167). -/
theorem exec_ksAdvance_of_session {s : State} (hf : s.flt = false) (hc : s.cfg = true) :
    exec .ksAdvance s = .next (respond .ok [] (advanceCounter s)) := by
  rw [exec, execKsAdvance, unlessFaulted_ok hf, requireSession_some hc]

/-- Settles O40: the word is the opcode alone; without a session the answer is the error, and with one the counter's word
addition wraps modulo 2^32. -/
theorem ksAdvanceCommandIncrementsTheCounter : Obligations.KsAdvanceCommandIncrementsTheCounter := by
  refine ⟨fun _ hop => legal_iff_of_opcode_alone hop (.inr (.inr (.inr rfl))), rfl, fun s => ⟨exec_faulted _,
    fun hf hc => congrArg _ (requireSession_unfaulted_none _ hf hc), fun hf hc => ?_⟩⟩
  have hwrap : BitVec.ofNat 32 ((s.ctr.toNat + 1) % 2 ^ 32) = s.ctr + 1 := by
    apply BitVec.eq_of_toNat_eq
    simp
  rw [hwrap, exec_ksAdvance_of_session hf hc]
  exact congrArg _ (respond_ok_nil _)

/-! Sequences of commands that advance the session (R169) -/

/-- An unfaulted core with a session advances its counter at `XOR_CHUNK` too, and answers with the chunk xored with the block of
the counter before that (R192). -/
theorem exec_xorChunk_of_session (len : Nat) (chunk : List Word) {s : State} (hf : s.flt = false) (hc : s.cfg = true) :
    exec (.xorChunk len chunk) s = .next (respond .ok
      (xorBlocks (padChunk len chunk) (ksWords s.sigma ⟨s.key, s.nonce, s.ctr⟩)).toList (advanceCounter s)) := by
  rw [exec, execXorChunk, unlessFaulted_ok hf, requireSession_some hc]

theorem exec_advancing {i : Instr} {s : State} (hi : advances i = true) (hf : s.flt = false) (hc : s.cfg = true) :
    ∃ out, exec i s = .next (respond .ok out (advanceCounter s)) := by
  cases i with
  | build | qround | round | blockfn | init | ksCurrent => cases hi
  | ksAdvance => exact ⟨_, exec_ksAdvance_of_session hf hc⟩
  | xorChunk len chunk => exact ⟨_, exec_xorChunk_of_session len chunk hf hc⟩

/-- The host's acceptance of the whole response moves its words to those accepted, and writes no register (R261). -/
theorem acceptResponse_eq (s : State) :
    acceptResponse s = { s with emitted := s.emitted ++ s.response, response := [] } := by
  simp [acceptResponse, acceptWords]

/-- A sequence goes on from the state a command left, once the host has accepted its response (R48, R60). -/
theorem runCommands_cons {i : Instr} {s t : State} (rest : List Instr) (h : exec i s = .next t) :
    runCommands (i :: rest) s = runCommands rest (acceptResponse t) := by
  rw [runCommands, h]

/-- Any commands that advance the session complete on an unfaulted core, and add their number to the counter. Nothing else but
the words the host has accepted is then different. -/
theorem runCommands_advancing (cmds : List Instr) (s : State) (hcmds : ∀ i ∈ cmds, advances i = true)
    (hf : s.flt = false) (hc : s.cfg = true) (hr : s.response = []) :
    ∃ accepted, runCommands cmds s =
      .next { s with ctr := s.ctr + BitVec.ofNat 32 cmds.length, emitted := s.emitted ++ accepted } := by
  induction cmds generalizing s with
  | nil => exact ⟨[], by simp [runCommands]⟩
  | cons i rest ih =>
    obtain ⟨hi, hrest⟩ := List.forall_mem_cons.1 hcmds
    obtain ⟨out, hexec⟩ := exec_advancing hi hf hc
    have hctr : s.ctr + 1 + BitVec.ofNat 32 rest.length = s.ctr + BitVec.ofNat 32 (i :: rest).length := by
      rw [List.length_cons, Nat.add_comm, BitVec.ofNat_add]
      exact BitVec.add_assoc ..
    obtain ⟨accepted, hrun⟩ :=
      ih (acceptResponse (respond .ok out (advanceCounter s))) hrest hf hc (acceptResponse_response _)
    refine ⟨(respond .ok out s).response ++ accepted, ?_⟩
    rw [runCommands_cons rest hexec, hrun, ← hctr, acceptResponse_eq]
    simp [hr]

/-- Settles O51: `INIT` leaves the counter at 0, and the commands after it add their number to it as words. -/
theorem counterCountsBlocksModuloTwoToThe32 : Obligations.CounterCountsBlocksModuloTwoToThe32 := by
  intro s key nonce cmds hf hcmds
  obtain ⟨accepted, hrun⟩ := runCommands_advancing cmds (acceptResponse (respond .ok [] (startSession key nonce s))) hcmds
    hf rfl (acceptResponse_response _)
  refine ⟨_, (runCommands_cons cmds (exec_init_unfaulted key nonce hf)).trans hrun, hf, rfl, rfl, rfl, rfl, ?_⟩
  apply BitVec.eq_of_toNat_eq
  simp

end Sys2Proof.Machine
end

section
/-! PROOFS. The stream XOR cipher unit (spec/44_stream_xor_cipher.md): the padded chunk as words and as bytes, its exclusive or with
a keystream block, the command `XOR_CHUNK`, and the length of what `transform` gives. -/

namespace Sys2Proof

/-- The legal words of `XOR_CHUNK` are those with a chunk length from 1 to 64 in field `A` and 0 in the fields above it (R62, R64). -/
theorem legal_iff_of_xorChunk {cw : Word} (hop : cw.toNat % 256 = 8) :
    legal cw = true ↔ ∃ len, 1 ≤ len ∧ len ≤ 64 ∧ cw = BitVec.ofNat 32 (8 + 2 ^ 8 * len) := by
  have hlt := cw.isLt
  simp only [← Bool.not_eq_false, legal_eq_false_iff, ← BitVec.toNat_inj, BitVec.toNat_ofNat]
  constructor
  · intro h
    exact ⟨cw.toNat / 256 % 256, by omega⟩
  · rintro ⟨len, h1, h64, hcw⟩
    omega

namespace Machine

/-! The padded chunk (R190) -/

/-- Word `i` of a padded chunk, by how many of its bytes lie before the chunk's end. -/
theorem padChunk_getElem (len : Nat) (ws : List Word) (i : Fin 16) : (padChunk len ws)[i] =
    if 4 * i.val + 4 ≤ len then ws.getD i.val 0
    else if 4 * i.val < len then ws.getD i.val 0 &&& BitVec.ofNat 32 (2 ^ (8 * (len - 4 * i.val)) - 1)
    else 0 := by
  have hfull : 4 ≤ len - 4 * i.val ↔ 4 * i.val + 4 ≤ len := by omega
  have hsome : 0 < len - 4 * i.val ↔ 4 * i.val < len := by omega
  simp only [padChunk, padWord, Fin.getElem_fin, Vector.getElem_ofFn, hfull, hsome]

/-- Masking a word to its low `n` bytes keeps those bytes and clears the others. -/
theorem extractLsb'_and_low_bytes (w : Word) (n j : Nat) (hj : j < 4) :
    (w &&& BitVec.ofNat 32 (2 ^ (8 * n) - 1)).extractLsb' (8 * j) 8 = if j < n then w.extractLsb' (8 * j) 8 else 0 := by
  ext k hk
  have hin : 8 * j + k < 32 := by omega
  have hlow : 8 * j + k < 8 * n ↔ j < n := by omega
  by_cases h : j < n <;>
    simp [← BitVec.getLsbD_eq_getElem, BitVec.getLsbD_ofNat, Nat.testBit_two_pow_sub_one, hin, hlow, h]

/-- A byte of word `i` of the padded chunk is the host's byte where it lies before the chunk's end, and zero after it. -/
theorem padWord_extractLsb' (len i : Nat) (w : Word) {j : Nat} (hj : j < 4) :
    (padWord len i w).extractLsb' (8 * j) 8 = if 4 * i + j < len then w.extractLsb' (8 * j) 8 else 0 := by
  have hbefore : j < len - 4 * i ↔ 4 * i + j < len := by omega
  simp only [padWord, ← hbefore]
  by_cases hfull : 4 ≤ len - 4 * i
  · rw [if_pos hfull, if_pos (hj.trans_le hfull)]
  · rw [if_neg hfull]
    by_cases hsome : 0 < len - 4 * i
    · rw [if_pos hsome, extractLsb'_and_low_bytes w _ j hj]
    · rw [if_neg hsome, if_neg (by omega)]
      simp

theorem serialize_length (x : Block) : (serialize x).length = 64 := (serialisedByteIsTheWordsByte x).1

/-- Byte `j` of a serialised block comes from word `j div 4` at bits `8(j mod 4)+7 : 8(j mod 4)` (R162). -/
theorem serialize_getElem? (x : Block) {j : Nat} (hj : j < 64) :
    (serialize x)[j]? = some ((x[j / 4]'(by omega)).extractLsb' (8 * (j % 4)) 8) := by
  have h := (serialisedByteIsTheWordsByte x).2 ⟨j / 4, by omega⟩ ⟨j % 4, by omega⟩
  rwa [Nat.div_add_mod] at h

/-- The packed words of a chunk hold at least its bytes (R43). -/
theorem length_take_unpackWords {len : Nat} {ws : List Word} (hws : ws.length = (len + 3) / 4) :
    ((unpackWords ws).take len).length = len := by
  rw [List.length_take, unpackWords_length]; omega

/-- As bytes a padded chunk is the chunk's bytes and then zero bytes, whatever the last word holds past the chunk's end. -/
theorem serialize_padChunk {len : Nat} {ws : List Word} (h64 : len ≤ 64) (hws : ws.length = (len + 3) / 4) :
    serialize (padChunk len ws) = (unpackWords ws).take len ++ List.replicate (64 - len) 0 := by
  have htake := length_take_unpackWords hws
  apply List.ext_getElem?
  intro j
  by_cases hj : j < 64
  · rw [serialize_getElem? _ hj, padChunk, Vector.getElem_ofFn, padWord_extractLsb' _ _ _ (Nat.mod_lt j (by decide)),
      Nat.div_add_mod]
    split
    case isTrue hlt =>
      rw [List.getElem?_append_left (by omega), List.getElem?_take_of_lt hlt, unpackWords_getElem? ws j (by omega)]
    case isFalse hge =>
      rw [List.getElem?_append_right (by omega), List.getElem?_replicate_of_lt (by omega)]
  · rw [List.getElem?_eq_none (by rw [serialize_length]; omega), List.getElem?_eq_none (by simp [htake]; omega)]

/-- Settles O32: the word by how many data bytes it has, and each byte by whether it lies before the chunk's end. -/
theorem shortChunkIsPaddedWithZeroBytes : Obligations.ShortChunkIsPaddedWithZeroBytes :=
  fun len ws _ h64 hws => ⟨padChunk_getElem len ws, serialize_padChunk h64 hws⟩

/-! The exclusive or with a keystream block (R191) -/

theorem xorBlocks_getElem (x y : Block) (i : Fin 16) : (xorBlocks x y)[i] = x[i] ^^^ y[i] := by
  simp [xorBlocks]

theorem xorBlocks_toList (x y : Block) : (xorBlocks x y).toList = List.zipWith (· ^^^ ·) x.toList y.toList := by
  apply List.ext_getElem
  · simp
  · simp [xorBlocks]

/-- The exclusive or of packed words is that of their bytes (R43). -/
theorem unpackWords_zipWith_xor (xs ys : List Word) :
    unpackWords (List.zipWith (· ^^^ ·) xs ys) = List.zipWith (· ^^^ ·) (unpackWords xs) (unpackWords ys) := by
  induction xs generalizing ys with
  | nil => rfl
  | cons x xs ih =>
    cases ys with
    | nil => simp
    | cons y ys =>
      rw [List.zipWith_cons_cons, unpackWords_cons, unpackWords_cons, unpackWords_cons, ih, le32Bytes_xor,
        List.zipWith_append (by simp)]

theorem serialize_xorBlocks (x y : Block) :
    serialize (xorBlocks x y) = List.zipWith (· ^^^ ·) (serialize x) (serialize y) := by
  rw [serialize, xorBlocks_toList, unpackWords_zipWith_xor, serialize, serialize]

/-- Zero bytes are neutral for the exclusive or. -/
theorem zipWith_xor_replicate_zero (bs : List Byte) : List.zipWith (· ^^^ ·) (List.replicate bs.length 0) bs = bs := by
  induction bs with
  | nil => rfl
  | cons b bs ih => simpa [List.replicate_succ] using ih

/-- Settles O33: the bytes of an exclusive or are the exclusive or of the bytes, and past the chunk's end one of them is zero. -/
theorem chunkIsXoredByteByByte : Obligations.ChunkIsXoredByteByByte := by
  intro len ws ks _ h64 hws
  have htake := length_take_unpackWords hws
  have hdrop : ((serialize ks).drop len).length = 64 - len := by rw [List.length_drop, serialize_length]
  refine ⟨xorBlocks_getElem _ ks, ?_, ?_⟩
  · rw [serialize_xorBlocks, serialize_padChunk h64 hws, padBytes64, htake]
  · rw [serialize_xorBlocks, serialize_padChunk h64 hws, List.drop_zipWith, List.drop_left' htake, ← hdrop,
      zipWith_xor_replicate_zero]

/-! The command `XOR_CHUNK` (R192) -/

/-- Settles O41: the word by its length field; without a session the answer is the error, and with one it is the padded chunk
xored with the block of the counter before the advance. -/
theorem xorChunkCommandXorsAndAdvances : Obligations.XorChunkCommandXorsAndAdvances := by
  refine ⟨fun cw hop => legal_iff_of_xorChunk hop, fun len ws s _ h64 _ => ⟨?_, exec_faulted _,
    fun hf hc => congrArg _ (requireSession_unfaulted_none _ hf hc), fun hf hc x hx => ?_⟩⟩
  · rw [encode, commandWord, cmdWord_eq_ofNat, toNat_ofNat_of_le_255 (h64.trans (by decide))]
    rfl
  · obtain rfl : layout s.sigma s.key s.ctr s.nonce = x := Option.some.inj ((build_toList ..).symm.trans hx)
    rw [← feedforward_toList, ← xorBlocks_toList, exec_xorChunk_of_session len ws hf hc]
    exact congrArg _ (respond_ok_block _ _)

/-! One command sent over the port (R60, R193) -/

/-- When the words of a well-formed command arrive next, the core runs that command (R60). -/
theorem step_encode {i : Instr} {s : State} {rest : List PortEvent} (hwf : i.wellFormed = true) (hr : s.response = [])
    (hin : s.input = asInput (encode i) ++ rest) : step s = exec i { s with input := rest } := by
  obtain ⟨_, hlength⟩ := encodedLegal i hwf
  rw [step, nextAction_command hr hin hlength (decode_encode (arrivingWords rest) hwf)]

/-- The host's acceptance of a whole response is taken at once, whether or not a word of it is left (R261). -/
theorem step_acceptAll {s : State} {rest : List PortEvent} (hin : s.input = .acceptAll :: rest) :
    step s = .next (acceptResponse { s with input := rest }) := by
  by_cases hr : s.response = []
  · simp [step, nextAction_ready hr, hin, whileReady, acceptResponse, hr]
  · simp [step, nextAction_pending hr, hin, whileResponding, acceptResponse]

/-- The host's exchange of a well-formed command gives the command's response, and leaves the core as the command does, with that
response accepted. -/
theorem send_of_exec {i : Instr} {s t : State} (hwf : i.wellFormed = true) (h : exec i (acceptResponse s) = .next t) :
    send i s = some (t.response, acceptResponse t) := by
  obtain ⟨_, hinput, _⟩ := exec_keeps_sigma_input_emitted h
  have hrun : step { acceptResponse s with input := exchange i ++ s.input } =
      .next { t with input := .acceptAll :: s.input } := by
    rw [← exec_input (.acceptAll :: s.input) h]
    apply step_encode hwf
    · exact acceptResponse_response s
    · exact List.append_assoc ..
  have haccept : step { t with input := .acceptAll :: s.input } = .next (acceptResponse t) := by
    rw [step_acceptAll rfl, ← acceptResponse_input s, ← hinput]
  simp only [send, hrun, haccept]

/-! The chunks of a byte string (R193) -/

theorem chunksOf_length (m : Nat) (bytes : List Byte) : (chunksOf m bytes).length = m := by
  induction m generalizing bytes with
  | zero => rfl
  | succ m ih => rw [chunksOf, List.length_cons, ih]

theorem chunks_length (bytes : List Byte) : (chunks bytes).length = (bytes.length + 63) / 64 := chunksOf_length _ _

/-- Where every chunk has a byte left to take, each has a length that `XOR_CHUNK` allows. -/
theorem length_bounds_of_mem_chunksOf {m : Nat} {bytes c : List Byte} (hm : 64 * m < bytes.length + 64) (hc : c ∈ chunksOf m bytes) :
    1 ≤ c.length ∧ c.length ≤ 64 := by
  induction m generalizing bytes with
  | zero => cases hc
  | succ m ih =>
    rcases List.mem_cons.1 hc with rfl | hrest
    · simp only [Config.chunkBytes, List.length_take]; omega
    · exact ih (by simp only [Config.chunkBytes, List.length_drop]; omega) hrest

theorem length_bounds_of_mem_chunks {bytes c : List Byte} (hc : c ∈ chunks bytes) : 1 ≤ c.length ∧ c.length ≤ 64 :=
  length_bounds_of_mem_chunksOf (by simp only [Config.chunkBytes]; omega) hc

/-- The command of such a chunk is one the host can send: its payload has as many words as its length asks for. -/
theorem chunkCommand_wellFormed {c : List Byte} (hc : 1 ≤ c.length ∧ c.length ≤ 64) : (chunkCommand c).wellFormed = true := by
  simp [chunkCommand, Instr.wellFormed, packBytes_length, hc]

/-! The length of the output (R194) -/

/-- The exchange of a chunk on an unfaulted core with a session: the padded chunk xored with the counter's block comes back, and
the session stands one block further (R192, R193). -/
theorem send_chunkCommand {c : List Byte} {s : State} (hc : 1 ≤ c.length ∧ c.length ≤ 64) (hf : s.flt = false)
    (hcfg : s.cfg = true) :
    ∃ t, send (chunkCommand c) s = some (0x00001000 ::
        (xorBlocks (padChunk c.length (packBytes c)) (ksWords s.sigma ⟨s.key, s.nonce, s.ctr⟩)).toList, t) ∧
      t.flt = false ∧ t.cfg = true ∧ t.sigma = s.sigma ∧ t.key = s.key ∧ t.nonce = s.nonce ∧ t.ctr = s.ctr + 1 := by
  have hsend := send_of_exec (chunkCommand_wellFormed hc) (exec_xorChunk_of_session _ _ (s := acceptResponse s) hf hcfg)
  rw [respond_ok_block] at hsend
  simp only [advanceCounter_response, acceptResponse_response, List.nil_append] at hsend
  exact ⟨_, hsend, hf, hcfg, rfl, rfl, rfl, rfl⟩

/-- On an unfaulted core with a session every chunk is answered with 64 bytes. -/
theorem sendChunks_completes {cs : List (List Byte)} {s : State} (hcs : ∀ c ∈ cs, 1 ≤ c.length ∧ c.length ≤ 64)
    (hf : s.flt = false) (hcfg : s.cfg = true) :
    ∃ output t, sendChunks cs s = some (output, t) ∧ output.length = cs.length * 64 := by
  induction cs generalizing s with
  | nil => exact ⟨[], s, rfl, rfl⟩
  | cons c rest ih =>
    obtain ⟨hc, hrest⟩ := List.forall_mem_cons.1 hcs
    obtain ⟨t, hsend, htf, htc, _⟩ := send_chunkCommand hc hf hcfg
    obtain ⟨later, u, hlater, hlength⟩ := ih hrest htf htc
    refine ⟨_, u, by rw [sendChunks, hsend, Option.bind_some, hlater]; rfl, ?_⟩
    simp [hlength]
    omega

/-- Settles O53: `INIT` starts a session on an unfaulted core, and each of the chunks then gives 64 bytes. -/
theorem transformOutputIsAWholeNumberOfChunks : Obligations.TransformOutputIsAWholeNumberOfChunks := by
  intro s key nonce input hf
  have hinit := send_of_exec (i := .init key.toList nonce.toList) (by simp [Instr.wellFormed])
    (exec_init_unfaulted key nonce (s := acceptResponse s) hf)
  obtain ⟨output, t, hchunks, hlength⟩ := sendChunks_completes (fun c => length_bounds_of_mem_chunks (bytes := input))
    (s := acceptResponse (respond .ok [] (startSession key nonce (acceptResponse s)))) hf rfl
  refine ⟨output, t, ?_, by rw [hlength, chunks_length]⟩
  rw [transform, hinit]
  exact hchunks

end Machine

end Sys2Proof
end

section
/-! PROOFS. Exceptions (spec/60_exceptions.md): raising an error, illegal command words, the refusals of a faulted core, and which
error a command reports first. -/

namespace Sys2Proof

/-! Check 3 and check 4 of R225 as tests on the command -/

/-- `BUILD` or `INIT` with a word count that R221 rejects. -/
def Instr.miscounted : Instr → Bool
  | .build key _ nonce => key.length != 8 || nonce.length != 3
  | .init key nonce => key.length != 8 || nonce.length != 3
  | .qround _ _ _ _ => false
  | .round _ _ => false
  | .blockfn _ => false
  | .ksCurrent => false
  | .ksAdvance => false
  | .xorChunk _ _ => false

/-- The commands that R223 refuses without a session. -/
def Instr.needsSession : Instr → Bool
  | .ksCurrent => true
  | .ksAdvance => true
  | .xorChunk _ _ => true
  | .build _ _ _ => false
  | .qround _ _ _ _ => false
  | .round _ _ => false
  | .blockfn _ => false
  | .init _ _ => false

@[simp] theorem cmdWord_toNat_op (b a op : Byte) : (cmdWord b a op).toNat % 256 = op.toNat := by
  rw [← opField_toNat, opField_cmdWord]

@[simp] theorem cmdWord_toNat_a (b a op : Byte) : (cmdWord b a op).toNat / 256 % 256 = a.toNat := by
  rw [← aField_toNat, aField_cmdWord]

@[simp] theorem cmdWord_toNat_b (b a op : Byte) : (cmdWord b a op).toNat / 65536 % 256 = b.toNat := by
  rw [← bField_toNat, bField_cmdWord]

/-- The counts of a command that the host can send are read off its command word (R62). -/
theorem miscounted_iff {i : Instr} (h : i.wellFormed = true) : i.miscounted = true ↔
    ((commandWord i).toNat % 256 = 1 ∨ (commandWord i).toNat % 256 = 5) ∧
      ((commandWord i).toNat / 256 % 256 ≠ 8 ∨ (commandWord i).toNat / 65536 % 256 ≠ 3) := by
  cases i with
  | build key ctr nonce | init key nonce =>
    simp only [Instr.wellFormed, Bool.and_eq_true, decide_eq_true_eq] at h
    obtain ⟨hkey, hnonce⟩ := h
    simp [Instr.miscounted, commandWord, -BitVec.toNat_ofNat, toNat_ofNat_of_le_255 hkey, toNat_ofNat_of_le_255 hnonce]
  | round p x => cases p <;> simp [Instr.miscounted, commandWord]
  | qround | blockfn | ksCurrent | ksAdvance | xorChunk => simp [Instr.miscounted, commandWord]

theorem needsSession_iff (i : Instr) : i.needsSession = true ↔
    (commandWord i).toNat % 256 = 6 ∨ (commandWord i).toNat % 256 = 7 ∨ (commandWord i).toNat % 256 = 8 := by
  cases i with
  | round p x => cases p <;> simp [Instr.needsSession, commandWord]
  | build | qround | blockfn | init | ksCurrent | ksAdvance | xorChunk => simp [Instr.needsSession, commandWord]

namespace Machine

/-! Raising and refusing (R224, R226) -/

/-- Settles O13: the whole state after a raise, with each error's code and response word written out. -/
theorem raiseWritesTheLatchAndTheCodeOnly : Obligations.RaiseWritesTheLatchAndTheCodeOnly := by
  intro e s
  rw [raise_eq]
  cases e with
  | configError | illegalCommand | notConfigured => rfl

/-- The refusal of a faulted core as a whole next state (R224). -/
theorem refuseFaulted_eq (s : State) :
    refuseFaulted s = { s with response := s.response ++ [0#8 ++ s.fcode ++ 0x0004#16] } := by
  rw [← responseWord_faulted]
  rfl

/-! What the core does with a command word and its payload -/

/-- An illegal word asks for no payload, so it is answered when it alone has arrived (R222). -/
theorem step_receives_illegal {s : State} {cw : Word} {ps : List Word} {rest : List PortEvent} (h : s.receives cw ps rest)
    (hl : legal cw = false) : step s = .next (illegalCommand { s with input := rest }) := by
  obtain ⟨hr, hin, hp⟩ := h
  obtain rfl := List.length_eq_zero_iff.1 (hp.trans (payloadLength_of_illegal hl))
  exact step_illegal hr hin hl

/-- A legal word with its payload is a command that the host can send, and the core runs it (R60, R63). -/
theorem step_receives_legal {s : State} {cw : Word} {ps : List Word} {rest : List PortEvent} (h : s.receives cw ps rest)
    (hl : legal cw = true) :
    ∃ i, i.wellFormed = true ∧ commandWord i = cw ∧ step s = exec i { s with input := rest } := by
  obtain ⟨hr, hin, hp⟩ := h
  obtain ⟨i, hwf, henc⟩ := exists_encode_eq hl hp
  exact ⟨i, hwf, (List.cons.inj henc).1, step_encode hwf hr (by rw [henc, hin])⟩

/-- A command word that has arrived with its payload is answered, legal or not (R60). -/
theorem step_receives_answered {s : State} {cw : Word} {ps : List Word} {rest : List PortEvent} (h : s.receives cw ps rest) :
    ∃ t, step s = .next t ∧ Answered { s with input := rest } t := by
  cases hl : legal cw with
  | false => exact ⟨_, step_receives_illegal h hl, illegalCommand_answered _⟩
  | true =>
    obtain ⟨i, _, _, hstep⟩ := step_receives_legal h hl
    obtain ⟨t, hexec, _⟩ := exec_next i { s with input := rest }
    exact ⟨t, hstep.trans hexec, exec_answered hexec⟩

theorem step_receives_faulted {s : State} {cw : Word} {ps : List Word} {rest : List PortEvent} (h : s.receives cw ps rest)
    (hf : s.flt = true) : step s = .next (refuseFaulted { s with input := rest }) := by
  obtain ⟨t, hstep, hanswer⟩ := step_receives_answered h
  obtain rfl := hanswer.eq_refuseFaulted hf
  exact hstep

/-- Settles O11: the core answers the word, and a faulted core can answer only by refusing. -/
theorem faultedCoreRefusesEveryCommand : Obligations.FaultedCoreRefusesEveryCommand := by
  intro s cw ps rest hf h
  rw [step_receives_faulted h hf, refuseFaulted_eq, h.1, List.nil_append]

/-- Settles O10: the illegal word raises its error alone, and the state that leaves is faulted with its code, so that O11 answers
the words after it. -/
theorem illegalWordConsumesNoPayloadAndFaults : Obligations.IllegalWordConsumesNoPayloadAndFaults := by
  intro s cw rest hf hr hl hin
  have hstep : step s = .next { s with input := rest, flt := true, fcode := 0x02, response := [0x00000002] } := by
    rw [step_illegal hr hin hl, illegalCommand_unfaulted (s := { s with input := rest }) hf, raise_eq, hr]
    rfl
  refine ⟨hstep, fun t ht w ps more h => ?_⟩
  obtain rfl := Host.Outcome.next.inj (hstep.symm.trans ht)
  have hword : (0x00020004 : Word) = 0#8 ++ 0x02#8 ++ 0x0004#16 := by decide
  rw [hword]
  exact faultedCoreRefusesEveryCommand _ w ps more rfl h

/-! The order of the checks on a legal command (R225) -/

/-- Check 3: a wrong count is reported whatever the session is (R221). -/
theorem exec_miscounted {i : Instr} {s : State} (hf : s.flt = false) (hm : i.miscounted = true) :
    exec i s = .next (raise .configError s) := by
  cases i with
  | build key ctr nonce =>
    rw [exec, execBuild, unlessFaulted_ok hf, build_eq_none_iff.2 (by simpa [Instr.miscounted] using hm)]
  | init key nonce => exact exec_init_wrong_count hf (by simpa [Instr.miscounted] using hm)
  | qround | round | blockfn | ksCurrent | ksAdvance | xorChunk => cases hm

/-- Check 4: a missing session is reported by the commands that need one (R223). -/
theorem exec_without_session {i : Instr} {s : State} (hf : s.flt = false) (hc : s.cfg = false) (hn : i.needsSession = true) :
    exec i s = .next (raise .notConfigured s) := by
  cases i with
  | ksCurrent | ksAdvance | xorChunk => exact congrArg _ ((unlessFaulted_ok hf).trans (requireSession_none hc))
  | build | qround | round | blockfn | init => cases hn

/-- Counts that pass check 3 are those of a key and a nonce of the right shape. -/
theorem exists_toList_of_counts {key nonce : List Word} (h : (key.length != 8 || nonce.length != 3) = false) :
    ∃ (k : Vector Word 8) (n : Vector Word 3), key = k.toList ∧ nonce = n.toList := by
  obtain ⟨hkey, hnonce⟩ : key.length = 8 ∧ nonce.length = 3 := by simpa using h
  obtain ⟨k, hk⟩ := exists_toList_eq hkey
  obtain ⟨n, hn⟩ := exists_toList_eq hnonce
  exact ⟨k, n, hk, hn⟩

/-- A command that passes the checks completes with an `OK` response. -/
theorem exec_completes {i : Instr} {s : State} (hf : s.flt = false) (hm : i.miscounted = false)
    (hn : i.needsSession = true → s.cfg = true) :
    ∃ out u, u.response = s.response ∧ exec i s = .next (respond .ok out u) := by
  cases i with
  | build key ctr nonce =>
    obtain ⟨k, n, rfl, rfl⟩ := exists_toList_of_counts hm
    exact ⟨_, s, rfl, by rw [exec, execBuild, unlessFaulted_ok hf, build_toList]⟩
  | init key nonce =>
    obtain ⟨k, n, rfl, rfl⟩ := exists_toList_of_counts hm
    exact ⟨_, startSession k n s, rfl, exec_init_unfaulted k n hf⟩
  | qround | round | blockfn => exact ⟨_, s, rfl, congrArg _ (unlessFaulted_ok hf)⟩
  | ksCurrent => exact ⟨_, s, rfl, exec_ksCurrent_of_session hf (session_some (hn rfl))⟩
  | ksAdvance => exact ⟨_, advanceCounter s, rfl, exec_ksAdvance_of_session hf (hn rfl)⟩
  | xorChunk len chunk => exact ⟨_, advanceCounter s, rfl, exec_xorChunk_of_session len chunk hf (hn rfl)⟩

/-- The status that a legal command reports on an unfaulted core: checks 3 and 4 in their order, or `OK`. -/
theorem exec_status {i : Instr} {s : State} (hf : s.flt = false) (hr : s.response = []) :
    ∃ t, exec i s = .next t ∧ (t.response.headD 0).toNat % 256 =
      if i.miscounted = true then 0x01 else if i.needsSession = true ∧ s.cfg = false then 0x03 else 0x00 := by
  split
  case isTrue hmis => exact ⟨_, exec_miscounted hf hmis, by simp [hr, Err.code]⟩
  case isFalse hcounts =>
    split
    case isTrue hmissing =>
      obtain ⟨hneeds, hc⟩ := hmissing
      exact ⟨_, exec_without_session hf hc hneeds, by simp [hr, Err.code]⟩
    case isFalse hsession =>
      obtain ⟨out, u, hu, hexec⟩ := exec_completes hf (Bool.eq_false_of_not_eq_true hcounts) (by simpa using hsession)
      exact ⟨_, hexec, by simp [hu, hr, Status.code]⟩

/-- Settles O12: check 1 by the latch, check 2 by the word, and checks 3 and 4 by the command it starts. -/
theorem firstErrorInPriorityOrderIsReported : Obligations.FirstErrorInPriorityOrderIsReported := by
  intro s cw ps rest h
  have hr : s.response = [] := h.1
  cases hf : s.flt with
  | true => exact ⟨_, step_receives_faulted h hf, by simp [hr]⟩
  | false =>
    cases hl : legal cw with
    | false =>
      refine ⟨_, step_receives_illegal h hl, ?_⟩
      rw [illegalCommand_unfaulted (s := { s with input := rest }) hf]
      simp [hr, Err.code]
    | true =>
      obtain ⟨i, hwf, rfl, hstep⟩ := step_receives_legal h hl
      obtain ⟨t, hexec, hstatus⟩ := exec_status (i := i) (s := { s with input := rest }) hf hr
      simp only [miscounted_iff hwf, needsSession_iff] at hstatus
      exact ⟨t, hstep.trans hexec, hstatus⟩

end Machine

end Sys2Proof
end

section
/-! PROOFS. Encoding (spec/30_encoding.md): decoding and encoding are inverse to each other, and a legal word is decoded exactly
when its whole payload is there. -/

namespace Sys2Proof

/-- Settles O2: the operands are read back from the payload that the encoder wrote. -/
theorem decodeOfEncodeIsTheCommand : Obligations.DecodeOfEncodeIsTheCommand := fun _ after h => decode_encode after h

/-! Taking operands from too few words -/

theorem length_of_takeWord {ws : List Word} {r : Word × List Word} (h : takeWord ws = some r) :
    ws.length = r.2.length + 1 := by
  rw [takeWord_eq_some h, List.length_cons]

theorem length_of_takeWords {n : Nat} {ws : List Word} {r : List Word × List Word} (h : takeWords n ws = some r) :
    ws.length = n + r.2.length := by
  obtain ⟨hlength, hws⟩ := takeWords_eq_some h
  rw [hws, List.length_append, hlength]

theorem length_of_takeVec {n : Nat} {ws : List Word} {r : Vector Word n × List Word} (h : takeVec n ws = some r) :
    ws.length = n + r.2.length := by
  rw [takeVec_eq_some h, List.length_append, Vector.length_toList]

/-- The operands of a legal word are taken from exactly `pl(cw)` words (R63). -/
theorem length_of_operands {cw : Word} {ws after : List Word} {i : Instr} (hl : legal cw = true)
    (h : operands cw ws = some (i, after)) : ws.length = payloadLength cw + after.length := by
  simp only [payloadLength, hl, Bool.not_true, Bool.false_eq_true, ↓reduceIte]
  unfold operands at h
  split at h <;> simp only [Option.bind_eq_some_iff, Option.map_eq_some_iff, Prod.mk.injEq, Option.some.injEq, reduceCtorEq] at h
  case h_1 =>
    obtain ⟨key, hkey, ctr, hctr, nonce, hnonce, -, rfl⟩ := h
    have := length_of_takeWords hkey; have := length_of_takeWord hctr; have := length_of_takeWords hnonce
    omega
  case h_2 =>
    obtain ⟨a, ha, b, hb, c, hc, d, hd, -, rfl⟩ := h
    have := length_of_takeWord ha; have := length_of_takeWord hb
    have := length_of_takeWord hc; have := length_of_takeWord hd
    omega
  case h_3 | h_4 =>
    obtain ⟨x, hx, -, rfl⟩ := h
    exact length_of_takeVec hx
  case h_5 =>
    obtain ⟨key, hkey, nonce, hnonce, -, rfl⟩ := h
    have := length_of_takeWords hkey; have := length_of_takeWords hnonce
    omega
  case h_6 | h_7 =>
    obtain ⟨-, rfl⟩ := h
    exact (Nat.zero_add _).symm
  case h_8 =>
    obtain ⟨chunk, hchunk, -, rfl⟩ := h
    exact length_of_takeWords hchunk

/-- A legal word and its payload are decoded as the command they encode, whatever words come after them. -/
theorem decode_of_payload {cw : Word} {ws : List Word} (hl : legal cw = true) (hp : payloadLength cw ≤ ws.length) :
    ∃ i after, i.wellFormed = true ∧ cw :: ws = encode i ++ after ∧ decode (cw :: ws) = .command i after := by
  obtain ⟨i, hwf, henc⟩ := exists_encode_eq (ps := ws.take (payloadLength cw)) hl (by simpa using hp)
  have hws : cw :: ws = encode i ++ ws.drop (payloadLength cw) := by
    rw [henc, List.cons_append, List.take_append_drop]
  exact ⟨i, _, hwf, hws, by rw [hws, decode_encode _ hwf]⟩

/-- A command is decoded only from a legal word with its whole payload. -/
theorem legal_and_payload_of_decode {cw : Word} {ws after : List Word} {i : Instr} (h : decode (cw :: ws) = .command i after) :
    legal cw = true ∧ payloadLength cw ≤ ws.length := by
  cases hl : legal cw with
  | false =>
    obtain ⟨reason, hreason⟩ := exists_whyIllegal hl
    rw [decode_illegal hreason] at h
    cases h
  | true =>
    rw [decode_legal ((whyIllegal_eq_none cw).2 hl)] at h
    cases hops : operands cw ws with
    | none => simp [hops] at h
    | some r => exact ⟨rfl, by rw [length_of_operands hl hops]; omega⟩

/-- Settles O3: a decoding has the whole payload of a legal word to read, and the command that this word and payload encode is the
one that is decoded. -/
theorem encodeOfDecodeIsTheWordsTaken : Obligations.EncodeOfDecodeIsTheWordsTaken := by
  intro ws i after h
  cases ws with
  | nil => cases h
  | cons cw ws =>
    obtain ⟨hl, hp⟩ := legal_and_payload_of_decode h
    obtain ⟨j, rest, hwf, hws, hdecode⟩ := decode_of_payload hl hp
    obtain ⟨rfl, rfl⟩ := Decoded.command.inj (h.symm.trans hdecode)
    exact ⟨hwf, hws⟩

/-- The decoder waits exactly when a legal word has too few payload words after it (R63). -/
theorem decode_eq_awaitingPayload_iff (cw : Word) (ws : List Word) :
    decode (cw :: ws) = .awaitingPayload ↔ legal cw = true ∧ ws.length < payloadLength cw := by
  cases hl : legal cw with
  | false =>
    obtain ⟨reason, hreason⟩ := exists_whyIllegal hl
    simp [decode_illegal hreason]
  | true =>
    by_cases hp : payloadLength cw ≤ ws.length
    · obtain ⟨i, after, _, _, hdecode⟩ := decode_of_payload hl hp
      simp [hdecode, hp]
    · have hnone : operands cw ws = none := by
        rw [Option.eq_none_iff_forall_ne_some]
        intro r hr
        exact hp (by rw [length_of_operands hl hr]; omega)
      rw [decode_legal ((whyIllegal_eq_none cw).2 hl), hnone]
      simpa using hp

theorem decode_encode_alone {i : Instr} (h : i.wellFormed = true) : decode (encode i) = .command i [] := by
  simpa using decode_encode [] h

/-- Settles O1: each word list is the encoding of its command. -/
theorem specWordsDecodeToTheirCommands : Obligations.SpecWordsDecodeToTheirCommands :=
  ⟨decode_encode_alone (i := .build [1, 2, 3, 4, 5, 6, 7, 8] 9 [10, 11, 12]) rfl,
    decode_encode_alone (i := .qround 1 2 3 4) rfl,
    fun x => decode_encode_alone (i := .round .column x) rfl,
    fun x => decode_encode_alone (i := .round .diagonal x) rfl,
    fun x => decode_encode_alone (i := .blockfn x) rfl,
    decode_encode_alone (i := .init [1, 2, 3, 4, 5, 6, 7, 8] [9, 10, 11]) rfl,
    decode_encode_alone (i := .init [1, 2, 3, 4, 5, 6, 7] [8, 9, 10]) rfl,
    decode_encode_alone (i := .ksCurrent) rfl,
    decode_encode_alone (i := .ksAdvance) rfl,
    decode_encode_alone (i := .xorChunk 6 [1, 2]) rfl,
    decode_encode_alone (i := .xorChunk 1 [1]) rfl⟩

end Sys2Proof
end

section
/-! PROOFS. Invariants of every step (spec/10_state.md): the status fields keep legal values, and between a reset or a successful
`INIT` and the next the session stays and the counter moves only by 1. -/

namespace Sys2Proof.Machine

open Sys2Proof

/-! The status fields (R25 to R28) -/

/-- Settles O44: the latch is clear and the code is 0. -/
theorem resetStatusIsLegal : Obligations.ResetStatusIsLegal := (statusLegal_iff _).2 (.inl ⟨rfl, rfl⟩)

/-- `NOT_CONFIGURED` is raised only without a session (R223). -/
theorem cfg_eq_false_of_raise_notConfigured {i : Instr} {s : State} (hf : s.flt = false) (hr : s.response = [])
    (h : exec i s = .next (raise .notConfigured s)) : s.cfg = false := by
  obtain ⟨t, hexec, hstatus⟩ := exec_status (i := i) hf hr
  obtain rfl := Host.Outcome.next.inj (h.symm.trans hexec)
  have hcode : ((raise .notConfigured s).response.headD 0).toNat % 256 = 0x03 := by simp [hr, Err.code]
  rw [hcode] at hstatus
  split at hstatus
  case isTrue => cases hstatus
  case isFalse =>
    split at hstatus
    case isTrue hmissing => exact hmissing.2
    case isFalse => cases hstatus

theorem raise_statusLegal {e : Err} {s : State} (h : e = .notConfigured → s.cfg = false) : (raise e s).statusLegal = true := by
  rw [statusLegal_iff]
  cases e with
  | configError | illegalCommand => simp [Err.code]
  | notConfigured => simp [Err.code, h]

/-- An answer to a command word keeps the status legal, if it raises `NOT_CONFIGURED` only without a session. -/
theorem Answered.keeps_statusLegal {s t : State} (h : Answered s t) (hl : s.statusLegal = true)
    (hraise : s.flt = false → t = raise .notConfigured s → s.cfg = false) : t.statusLegal = true := by
  cases h with
  | refused => exact hl
  | raised e hf => exact raise_statusLegal fun he => hraise hf (by rw [he])
  | completed out u hf huf hcode =>
    refine (statusLegal_iff _).2 (.inl ⟨huf, ?_⟩)
    rw [respond_fcode, hcode, fcode_eq_zero_of_statusLegal hl hf]
    rfl

theorem exec_keeps_statusLegal {i : Instr} {s t : State} (hr : s.response = []) (hl : s.statusLegal = true)
    (h : exec i s = .next t) : t.statusLegal = true :=
  (exec_answered h).keeps_statusLegal hl fun hf ht => cfg_eq_false_of_raise_notConfigured hf hr (ht ▸ h)

theorem illegalCommand_keeps_statusLegal {s : State} (hl : s.statusLegal = true) : (illegalCommand s).statusLegal = true := by
  refine (illegalCommand_answered s).keeps_statusLegal hl fun hf h => ?_
  rw [illegalCommand_unfaulted hf] at h
  have hcode : (raise .illegalCommand s).fcode = (raise .notConfigured s).fcode := congrArg State.fcode h
  cases hcode

/-- Settles O45: a reset clears the status fields, idling and acceptances leave them, and a command or an illegal word keeps them
legal. -/
theorem everyStepKeepsTheStatusLegal : Obligations.EveryStepKeepsTheStatusLegal := by
  intro s t hl h
  rcases step_cases h with ⟨_, _, _, rfl⟩ | ⟨rest, _, rfl⟩ | ⟨n, rest, _, rfl⟩ | ⟨i, rest, _, hr, hexec⟩ |
    ⟨r, rest, _, _, rfl⟩
  case inl => exact hl
  case inr.inl => exact resetStatusIsLegal
  case inr.inr.inl => exact hl
  case inr.inr.inr.inl => exact exec_keeps_statusLegal (s := { s with input := rest }) hr hl hexec
  case inr.inr.inr.inr => exact illegalCommand_keeps_statusLegal (s := { s with input := rest }) hl

/-! The session and the constants (R24, R33) -/

/-- The key, the nonce and `STATUS.CFG` of `t` are those of `s`, and so is the counter, or it is one more. -/
def SessionMovesOn (s t : State) : Prop :=
  t.key = s.key ∧ t.nonce = s.nonce ∧ t.cfg = s.cfg ∧ (t.ctr = s.ctr ∨ t.ctr = s.ctr + 1)

/-- A command that is no successful `INIT` at most advances the session. -/
theorem exec_sessionMovesOn {i : Instr} {s t : State} (h : exec i s = .next t)
    (hinit : ∀ (k : Vector Word 8) (n : Vector Word 3), s.flt = false → i ≠ .init k.toList n.toList) :
    SessionMovesOn s t := by
  rcases exec_cases i s with ⟨_, hx⟩ | ⟨_, _, hx⟩ | ⟨hf, _, _, k, n, hi, rfl, rfl, _⟩ | ⟨_, _, _, _, hx⟩ |
    ⟨_, _, _, hx⟩
  case inr.inr.inl => exact absurd hi (hinit k n hf)
  all_goals obtain rfl := Host.Outcome.next.inj (hx.symm.trans h)
  case inr.inr.inr.inl => exact ⟨rfl, rfl, rfl, .inr rfl⟩
  all_goals exact ⟨rfl, rfl, rfl, .inl rfl⟩

theorem illegalCommand_keeps_session_and_sigma (s : State) :
    (illegalCommand s).sigma = s.sigma ∧ SessionMovesOn s (illegalCommand s) := by
  cases hf : s.flt with
  | true => rw [illegalCommand_faulted hf]; exact ⟨rfl, rfl, rfl, rfl, .inl rfl⟩
  | false => rw [illegalCommand_unfaulted hf]; exact ⟨rfl, rfl, rfl, rfl, .inl rfl⟩

/-- Settles O47: what is left for a step that is no reset and no successful `INIT` is to leave the registers or to run a command
that at most advances the session. -/
theorem onlyInitAndResetReplaceTheSession : Obligations.OnlyInitAndResetReplaceTheSession := by
  intro s t h
  rcases step_cases h with ⟨_, _, _, rfl⟩ | ⟨rest, ha, rfl⟩ | ⟨n, rest, _, rfl⟩ | ⟨i, rest, ha, _, hexec⟩ |
    ⟨r, rest, _, _, rfl⟩
  case inl => exact ⟨rfl, fun _ _ => ⟨rfl, rfl, rfl, .inl rfl⟩⟩
  case inr.inl => exact ⟨rfl, fun hres => by simp [State.resets, ha] at hres⟩
  case inr.inr.inl => exact ⟨rfl, fun _ _ => ⟨rfl, rfl, rfl, .inl rfl⟩⟩
  case inr.inr.inr.inl =>
    refine ⟨(exec_keeps_sigma_input_emitted hexec).1, fun _ hstart => ?_⟩
    refine exec_sessionMovesOn (s := { s with input := rest }) hexec fun k n (hf : s.flt = false) hi => ?_
    simp [State.startsSession, ha, hi, hf] at hstart
  case inr.inr.inr.inr =>
    obtain ⟨hsigma, hsession⟩ := illegalCommand_keeps_session_and_sigma { s with input := rest }
    exact ⟨hsigma, fun _ _ => hsession⟩

end Sys2Proof.Machine
end

section
/-! PROOFS. The step and the port (spec/20_memory.md sections 3 and 4, spec/70_reset_and_hazards.md sections 1 and 5): a command
at the port, sequences of commands, words that wait behind a response, where the machine stops, and reset. -/

namespace Sys2Proof.Machine

open Sys2Proof

/-! One command (R60) -/

/-- Settles O6: the port delivers the command whose encoding arrives. -/
theorem stepRunsTheDecodedCommand : Obligations.StepRunsTheDecodedCommand := fun _ _ _ => step_encode

theorem splitWords_length (n w : Nat) : (splitWords n w).length = n := by
  induction n generalizing w with
  | zero => rfl
  | succ n ih => rw [splitWords, List.length_cons, ih]

/-- The words of a table row are a command word and as many words as it takes for its payload (R63). -/
theorem tableWords_eq_cons (nbits w : Nat) :
    ∃ cw ps, tableWords nbits w = cw :: ps ∧ ps.length = payloadLength cw := by
  refine ⟨BitVec.ofNat 32 (w % 2 ^ nbits), _, ?_, splitWords_length _ (w % 2 ^ nbits / 2 ^ 32)⟩
  rw [tableWords, Nat.add_comm, splitWords]

/-- A table word that decodes is placed as the encoding of its instruction, with no word after it. -/
theorem tableWords_eq_encode {nbits w : Nat} {i : Instr} (h : decodeTableWord nbits w = some i) :
    i.wellFormed = true ∧ tableWords nbits w = encode i := by
  obtain ⟨cw, ps, htable, hp⟩ := tableWords_eq_cons nbits w
  have hdecode : ∃ after, decode (cw :: ps) = .command i after := by
    rw [decodeTableWord, htable] at h
    split at h
    case h_1 hd => exact ⟨_, by rw [hd, Option.some.inj h]⟩
    all_goals cases h
  obtain ⟨after, hdecode⟩ := hdecode
  obtain ⟨hwf, hws⟩ := encodeOfDecodeIsTheWordsTaken _ i after hdecode
  obtain ⟨rfl, hps⟩ := List.cons.inj hws
  have hafter : after = [] := by
    have hlength : ps.length = (payload i).length + after.length := by rw [hps]; exact List.length_append
    rw [(encodedLegal i hwf).2, hp] at hlength
    exact List.length_eq_zero_iff.1 (by omega)
  rw [htable, hws, hafter, List.append_nil]
  exact ⟨hwf, rfl⟩

/-- Settles O9: the words that are placed are the encoding of the instruction. -/
theorem placedTableWordIsTheNextInstructionRun : Obligations.PlacedTableWordIsTheNextInstructionRun := by
  intro s nbits w i h
  obtain ⟨hwf, htable⟩ := tableWords_eq_encode h
  have hin : (s.withFetchWord nbits w).input = asInput (encode i) ++ s.input := by
    rw [State.withFetchWord, sendWords_input, htable, acceptResponse_input]
  have hr : (s.withFetchWord nbits w).response = [] := acceptResponse_response s
  rw [step_encode hwf hr hin, ← acceptResponse_eq]
  rfl

/-! Sequences of commands (R48, R60) -/

/-- A run begins with a step. -/
theorem core_run_succ {s t : State} (h : step s = .next t) (k : Nat) : core.run (k + 1) s = core.run k t := by
  have h : core.step s = .next t := h
  simp only [Host.Core.run, h]

/-- The host's exchange of a well-formed command takes two steps: the command's and the acceptance's. -/
theorem core_run_exchange {i : Instr} {s t : State} {rest : List PortEvent} (hwf : i.wellFormed = true)
    (hr : s.response = []) (hin : s.input = exchange i ++ rest) (h : exec i { s with input := rest } = .next t) (k : Nat) :
    core.run (k + 2) s = core.run k (acceptResponse t) := by
  obtain ⟨_, hinput, _⟩ := exec_keeps_sigma_input_emitted h
  have hcommand : step s = .next { t with input := .acceptAll :: rest } := by
    rw [← exec_input (.acceptAll :: rest) h]
    exact step_encode hwf hr (by rw [hin, exchange, List.append_assoc]; rfl)
  have haccept : step { t with input := .acceptAll :: rest } = .next (acceptResponse t) := by
    rw [step_acceptAll rfl, ← show t.input = rest from hinput]
  rw [core_run_succ hcommand, core_run_succ haccept]

/-- Settles O7: by induction on the commands, each of which the host exchanges in two steps. -/
theorem stepsRunTheCommandSequenceInOrder : Obligations.StepsRunTheCommandSequenceInOrder := by
  intro cmds s rest hwf hr hin
  induction cmds generalizing s with
  | nil => rw [← show s.input = rest from hin]; rfl
  | cons i cmds ih =>
    obtain ⟨hi, hcmds⟩ := List.forall_mem_cons.1 hwf
    rw [List.flatMap_cons, List.append_assoc] at hin
    obtain ⟨t, hexec, hinput⟩ := exec_next i { s with input := cmds.flatMap exchange ++ rest }
    rw [List.length_cons, Nat.mul_succ, core_run_exchange hi hr hin hexec,
      ih (acceptResponse t) hcmds (acceptResponse_response t) hinput, runCommands_cons cmds (exec_input rest hexec)]
    rfl

/-! Words that wait behind a response (R261) -/

/-- The words that the host sends while response words are left are passed over for the act behind them. -/
theorem nextAction_waiting {s : State} {ws : List Word} {es : List PortEvent} (hr : s.response ≠ [])
    (hin : s.input = asInput ws ++ es) :
    nextAction s = whileResponding s.response.length es (asInput ws).reverse := by
  rw [nextAction_pending hr, hin, whileResponding_asInput, List.append_nil]

/-- A reset at the front is the step (R250). -/
theorem step_reset {s : State} {rest : List PortEvent} (hin : s.input = .reset :: rest) :
    step s = .next (assertReset { s with input := rest }) := by
  rw [step, nextAction_reset hin]

/-- What the host does next while response words are left, behind any words it sends. -/
theorem step_waiting {s : State} {ws : List Word} (hr : s.response ≠ []) :
    (s.input = asInput ws → step s = .fault .awaitingAcceptance) ∧
    (∀ rest, s.input = asInput ws ++ .accept :: rest → step s = .next { s with
      input := asInput ws ++ rest, emitted := s.emitted ++ s.response.take 1, response := s.response.drop 1 }) ∧
    (∀ rest, s.input = asInput ws ++ .acceptAll :: rest → step s = .next { s with
      input := asInput ws ++ rest, emitted := s.emitted ++ s.response, response := [] }) ∧
    (∀ rest, s.input = asInput ws ++ .reset :: rest → step s = step { s with input := .reset :: rest }) := by
  refine ⟨fun hin => ?_, fun rest hin => ?_, fun rest hin => ?_, fun rest hin => ?_⟩
  · rw [step, nextAction_waiting hr (hin.trans (List.append_nil _).symm)]
    rfl
  · rw [step, nextAction_waiting hr hin, whileResponding, List.reverse_reverse]
    rfl
  · rw [step, nextAction_waiting hr hin, whileResponding, List.reverse_reverse]
    simp [acceptWords]
  · rw [step, nextAction_waiting hr hin, step_reset rfl]
    rfl

theorem step_accept_nothing {s : State} {e : PortEvent} {rest : List PortEvent} (hr : s.response = [])
    (he : e = .accept ∨ e = .acceptAll) (hin : s.input = e :: rest) : step s = .next { s with input := rest } := by
  have hnext : nextAction s = .accept 0 rest := by
    rw [nextAction_ready hr, hin]
    rcases he with rfl | rfl <;> rfl
  simp [step, hnext, acceptWords]

/-- Settles O8: the host's acts one by one, and then every step that finds response words left. -/
theorem pendingResponseHoldsBackTheNextCommand : Obligations.PendingResponseHoldsBackTheNextCommand := by
  refine ⟨fun s ws => step_waiting, fun s e rest => step_accept_nothing, fun s t hr h => ?_⟩
  rcases step_cases h with ⟨_, _, hr', _⟩ | ⟨rest, ha, rfl⟩ | ⟨n, rest, ha, rfl⟩ | ⟨_, _, _, hr', _⟩ |
    ⟨_, _, _, hr', _⟩
  case inr.inl => simp [State.takesCommand, State.resets, ha]
  case inr.inr.inl => simp [State.takesCommand, ha, acceptWords]
  all_goals exact absurd hr' hr

/-! Where the machine stops (R262) -/

theorem decode_cons_ne_noWord (cw : Word) (ws : List Word) : decode (cw :: ws) ≠ .noWord := by
  cases hw : whyIllegal cw with
  | some reason => simp [decode_illegal hw]
  | none =>
    rw [decode_legal hw]
    cases operands cw ws <;> simp

/-- The core starves where a command waits for payload words that do not come, and no reset comes either. -/
theorem whileReady_word_eq_starved_iff (cw : Word) (es : List PortEvent) : whileReady (.word cw :: es) = .starved ↔
    decode (cw :: arrivingWords es) = .awaitingPayload ∧ afterReset es = none := by
  simp only [whileReady]
  cases hd : decode (cw :: arrivingWords es) with
  | noWord => exact absurd hd (decode_cons_ne_noWord _ _)
  | awaitingPayload => cases afterReset es <;> simp
  | command | illegal => simp

theorem whileReady_eq_starved_iff (es : List PortEvent) : whileReady es = .starved ↔ ∃ cw rest,
    es = .word cw :: rest ∧ .reset ∉ rest ∧ legal cw = true ∧ (arrivingWords rest).length < payloadLength cw := by
  cases es with
  | nil => simp [whileReady]
  | cons e es =>
    cases e with
    | accept | acceptAll | reset => simp [whileReady]
    | word cw =>
      rw [whileReady_word_eq_starved_iff, decode_eq_awaitingPayload_iff, afterReset_eq_none]
      constructor
      · rintro ⟨⟨hl, hp⟩, hreset⟩
        exact ⟨cw, es, rfl, hreset, hl, hp⟩
      · rintro ⟨_, _, ⟨⟩, hreset, hl, hp⟩
        exact ⟨⟨hl, hp⟩, hreset⟩

/-- Once the response is accepted the core waits for no acceptance. -/
theorem whileReady_ne_unaccepted (es : List PortEvent) : whileReady es ≠ .unaccepted := by
  cases es with
  | nil => simp [whileReady]
  | cons e es =>
    cases e with
    | accept | acceptAll | reset => simp [whileReady]
    | word cw =>
      simp only [whileReady]
      cases decode (cw :: arrivingWords es) with
      | awaitingPayload => cases afterReset es <;> simp
      | noWord | command | illegal => simp

theorem nextAction_eq_starved_iff (s : State) : nextAction s = .starved ↔ s.response = [] ∧ ∃ cw rest,
    s.input = .word cw :: rest ∧ .reset ∉ rest ∧ legal cw = true ∧ (arrivingWords rest).length < payloadLength cw := by
  by_cases hr : s.response = []
  · rw [nextAction_ready hr, whileReady_eq_starved_iff]
    simp [hr]
  · rw [nextAction_pending hr]
    rcases whileResponding_cases s.response.length s.input [] with ⟨n, rest, h⟩ | ⟨rest, h⟩ | ⟨h, _⟩ <;> simp [h, hr]

theorem nextAction_eq_unaccepted_iff (s : State) :
    nextAction s = .unaccepted ↔ s.response ≠ [] ∧ ∃ ws, s.input = asInput ws := by
  by_cases hr : s.response = []
  · simp [nextAction_ready hr, whileReady_ne_unaccepted, hr]
  · constructor
    · intro h
      rw [nextAction_pending hr] at h
      rcases whileResponding_cases s.response.length s.input [] with ⟨n, rest, h'⟩ | ⟨rest, h'⟩ | ⟨_, hin⟩
      · cases h'.symm.trans h
      · cases h'.symm.trans h
      · exact ⟨hr, hin⟩
    · rintro ⟨_, ws, hin⟩
      rw [nextAction_waiting hr (hin.trans (List.append_nil _).symm), whileResponding]

/-- The two stops of `step`; every command and every act of the host has a next state. -/
theorem step_stops (s : State) : (∀ r, step s ≠ .refused r) ∧ ∀ f, step s = .fault f ↔
    f = .awaitingPayload ∧ nextAction s = .starved ∨ f = .awaitingAcceptance ∧ nextAction s = .unaccepted := by
  cases ha : nextAction s with
  | command i rest =>
    obtain ⟨t, hexec, _⟩ := exec_next i { s with input := rest }
    simp [step, ha, hexec]
  | idle | reset | accept | illegal | starved | unaccepted => simp [step, ha, eq_comm]

/-- Settles O15: `step` stops exactly at the two actions in which the core waits for ever. -/
theorem stepStopsOnlyWhereTheCoreWaitsForEver : Obligations.StepStopsOnlyWhereTheCoreWaitsForEver := by
  intro s
  obtain ⟨hrefused, hfault⟩ := step_stops s
  refine ⟨hrefused, fun f => ?_⟩
  rw [hfault, nextAction_eq_starved_iff, nextAction_eq_unaccepted_iff]

/-- Settles O16: with no act to come and no response word left, the next action is to be idle. -/
theorem idleCoreHoldsItsState : Obligations.IdleCoreHoldsItsState := by
  intro s h
  obtain ⟨hin, hr⟩ : s.input = [] ∧ s.response = [] := by simpa [State.runEnded] using h
  rw [step, nextAction_idle hr hin]

/-! Reset (R250, R251) -/

/-- Settles O17: the step is `assertReset`, whose fields are those of the reset state or are kept. -/
theorem resetClearsTheStatusAndTheSession : Obligations.ResetClearsTheStatusAndTheSession :=
  ⟨fun _ _ hin => ⟨_, step_reset hin, rfl, rfl, rfl, rfl, rfl, rfl, rfl, rfl⟩, rfl, rfl, rfl, rfl, by decide⟩

/-- A reset behind a command with too few payload words is the next action: the command is discarded (R251). -/
theorem nextAction_discarded {s : State} {cw : Word} {ps : List Word} {rest : List PortEvent} (hr : s.response = [])
    (hl : legal cw = true) (hp : ps.length < payloadLength cw) (hin : s.input = asInput (cw :: ps) ++ .reset :: rest) :
    nextAction s = .reset rest := by
  have hwaits : decode (cw :: arrivingWords (asInput ps ++ .reset :: rest)) = .awaitingPayload := by
    rw [decode_eq_awaitingPayload_iff, arrivingWords_asInput]
    exact ⟨hl, by simpa [arrivingWords] using hp⟩
  have hin : s.input = .word cw :: (asInput ps ++ .reset :: rest) := hin
  rw [nextAction_partial hr hin hwaits, afterReset_asInput]
  rfl

/-- Settles O18: a partly arrived command and a response leave nothing behind for `assertReset` to read. -/
theorem resetDiscardsPartialCommandAndTruncatesResponse : Obligations.ResetDiscardsPartialCommandAndTruncatesResponse := by
  refine ⟨fun s cw ps rest hr hl hp hin => ?_, fun s rest hin => ⟨?_, step_reset hin⟩⟩
  · rw [step_reset (s := { s with input := .reset :: rest }) rfl, step, nextAction_discarded hr hl hp hin]
  · rw [step_reset hin, step_reset (s := { s with response := [] }) hin]
    rfl

end Sys2Proof.Machine
end

section
/-! PROOFS. Noninterference (spec/60_exceptions.md section 3, spec/70_reset_and_hazards.md section 1): the diagnostic commands do
not read the session, and without a session no run shows what the session registers hold. -/

namespace Sys2Proof.Machine

open Sys2Proof

/-! The diagnostic commands -/

theorem ne_init_of_diagnostic {i : Instr} (hi : diagnostic i = true) (key nonce : List Word) : i ≠ .init key nonce := by
  rintro rfl
  cases hi

theorem not_advances_of_diagnostic {i : Instr} (hi : diagnostic i = true) : advances i = false := by
  cases i with
  | build | qround | round | blockfn => rfl
  | init | ksCurrent | ksAdvance | xorChunk => cases hi

/-- A command that neither starts nor advances a session leaves what a command can read of it. -/
theorem exec_keeps_session {i : Instr} {s t : State} (h : exec i s = .next t) (hinit : ∀ key nonce, i ≠ .init key nonce)
    (hadv : advances i = false) : t.session = s.session := by
  obtain ⟨hkey, hnonce, hcfg, hctr⟩ := exec_session_of_ne_init h hinit
  simp only [State.session, hkey, hnonce, hcfg, hctr hadv]

/-- An unfaulted core's answer by the words a diagnostic command computes: their `OK` response, or `CONFIG_ERROR` without any. -/
def diagnosticAnswer : Option (List Word) → State → State
  | some out, s => respond .ok out s
  | none, s => raise .configError s

/-- What a diagnostic command computes depends on its operands and the constants alone (R67). -/
theorem exec_diagnostic {i : Instr} (hi : diagnostic i = true) (sigma : Vector Word 4) :
    ∃ out, ∀ s : State, s.sigma = sigma → s.flt = false → exec i s = .next (diagnosticAnswer out s) := by
  cases i with
  | build key ctr nonce =>
    refine ⟨(build sigma key ctr nonce).map Vector.toList, fun s hsigma hf => ?_⟩
    rw [exec, execBuild, unlessFaulted_ok hf, hsigma]
    cases build sigma key ctr nonce <;> rfl
  | qround | round | blockfn => exact ⟨some _, fun s _ hf => congrArg _ (unlessFaulted_ok hf)⟩
  | init | ksCurrent | ksAdvance | xorChunk => cases hi

/-- A diagnostic command neither reads nor writes the session registers and `STATUS.CFG`. -/
theorem exec_diagnostic_withSession {i : Instr} {s t : State} (hi : diagnostic i = true) (x : Session) (c : Bool)
    (h : exec i s = .next t) : exec i { s with key := x.key, nonce := x.nonce, ctr := x.ctr, cfg := c } =
      .next { t with key := x.key, nonce := x.nonce, ctr := x.ctr, cfg := c } := by
  rcases s.flt.eq_false_or_eq_true with hf | hf
  · obtain rfl := Host.Outcome.next.inj ((exec_faulted i hf).symm.trans h)
    exact exec_faulted i hf
  · obtain ⟨out, hout⟩ := exec_diagnostic hi s.sigma
    obtain rfl := Host.Outcome.next.inj ((hout s rfl hf).symm.trans h)
    rw [hout { s with key := x.key, nonce := x.nonce, ctr := x.ctr, cfg := c } rfl hf]
    cases out <;> rfl

/-- Settles O43: with another session in the registers the command does the same beside it. -/
theorem diagnosticCommandsDoNotTouchTheSession : Obligations.DiagnosticCommandsDoNotTouchTheSession := by
  intro i s hi x c
  obtain ⟨t, h, _⟩ := exec_next i s
  exact ⟨t, _, h, exec_diagnostic_withSession hi x c h, rfl,
    exec_keeps_session h (ne_init_of_diagnostic hi) (not_advances_of_diagnostic hi), fun hc => session_some hc⟩

/-! Without a session -/

/-- Two outcomes that show the host the same: they are equal, or next states without a session that differ at most in what
`KEY`, `NONCE` and `CTR` hold. -/
def ShowTheSame (o p : Host.Outcome State Fault Refusal) : Prop :=
  o = p ∨ ∃ s t, o = .next s ∧ p = .next t ∧ s.cfg = false ∧ sameButSession s t

theorem illegalCommand_showTheSame {s t : State} (hc : s.cfg = false) (h : sameButSession s t) :
    ShowTheSame (.next (illegalCommand s)) (.next (illegalCommand t)) := by
  obtain ⟨key, nonce, ctr, rfl⟩ := h
  refine .inr ⟨_, _, rfl, rfl, (illegalCommand_cfg s).trans hc, key, nonce, ctr, ?_⟩
  rcases s.flt.eq_false_or_eq_true with hf | hf
  · rw [illegalCommand_faulted hf]; exact illegalCommand_faulted hf
  · rw [illegalCommand_unfaulted hf]; exact illegalCommand_unfaulted hf

theorem exec_diagnostic_showTheSame {i : Instr} {s t : State} (hi : diagnostic i = true) (hc : s.cfg = false)
    (h : sameButSession s t) : ShowTheSame (exec i s) (exec i t) := by
  obtain ⟨key, nonce, ctr, rfl⟩ := h
  obtain ⟨u, hu, _⟩ := exec_next i s
  have hcfg : u.cfg = s.cfg := exec_cfg_of_ne_init hu (ne_init_of_diagnostic hi)
  refine .inr ⟨u, _, hu, exec_diagnostic_withSession hi ⟨key, nonce, ctr⟩ s.cfg hu, hcfg.trans hc, key, nonce, ctr, ?_⟩
  rw [← hcfg]

/-- Without a session no command shows what the session registers hold: the diagnostic commands do not read them, `INIT` replaces
them, and the others raise `NOT_CONFIGURED`. -/
theorem exec_showTheSame (i : Instr) {s t : State} (hc : s.cfg = false) (h : sameButSession s t) :
    ShowTheSame (exec i s) (exec i t) := by
  obtain ⟨key, nonce, ctr, rfl⟩ := h
  rcases s.flt.eq_false_or_eq_true with hf | hf
  · exact .inr ⟨_, _, exec_faulted i hf, exec_faulted i hf, hc, key, nonce, ctr, rfl⟩
  · cases i with
    | build | qround | round | blockfn => exact exec_diagnostic_showTheSame rfl hc ⟨key, nonce, ctr, rfl⟩
    | init k n =>
      cases hm : (k.length != 8 || n.length != 3) with
      | true => exact .inr ⟨_, _, exec_miscounted hf hm, exec_miscounted hf hm, hc, key, nonce, ctr, rfl⟩
      | false =>
        obtain ⟨k, n, rfl, rfl⟩ := exists_toList_of_counts hm
        refine .inl ((exec_init_unfaulted k n hf).trans ?_)
        exact (exec_init_unfaulted k n (s := { s with key := key, nonce := nonce, ctr := ctr }) hf).symm
    | ksCurrent | ksAdvance | xorChunk =>
      exact .inr ⟨_, _, exec_without_session hf hc rfl, exec_without_session hf hc rfl, hc, key, nonce, ctr, rfl⟩

theorem step_showTheSame {s t : State} (hc : s.cfg = false) (h : sameButSession s t) : ShowTheSame (step s) (step t) := by
  obtain ⟨key, nonce, ctr, rfl⟩ := h
  have hnext : nextAction { s with key := key, nonce := nonce, ctr := ctr } = nextAction s := rfl
  simp only [step, hnext]
  cases nextAction s with
  | idle | accept => exact .inr ⟨_, _, rfl, rfl, hc, key, nonce, ctr, rfl⟩
  | reset | starved | unaccepted => exact .inl rfl
  | command i rest => exact exec_showTheSame i hc ⟨key, nonce, ctr, rfl⟩
  | illegal r rest => exact illegalCommand_showTheSame hc ⟨key, nonce, ctr, rfl⟩

theorem core_run_succ_congr {s t : State} (h : step s = step t) (n : Nat) : core.run (n + 1) s = core.run (n + 1) t := by
  have h : core.step s = core.step t := h
  simp only [Host.Core.run, h]

/-- Settles O19: by induction on the number of steps; two cores that stop, stop alike, and two that have become the same stay so. -/
theorem unconfiguredSessionValuesAreUnobservable : Obligations.UnconfiguredSessionValuesAreUnobservable := by
  intro s t hc h n
  induction n generalizing s t with
  | zero =>
    obtain ⟨key, nonce, ctr, rfl⟩ := h
    rfl
  | succ n ih =>
    rcases step_showTheSame hc h with hsame | ⟨s', t', hs, ht, hc', h'⟩
    · rw [core_run_succ_congr hsame]
    · rw [core_run_succ hs, core_run_succ ht]
      exact ih s' t' hc' h'

end Sys2Proof.Machine
end

section
/-! PROOFS. The rounds once more (spec/41_quarter_round.md section 1, spec/42_block_function.md): the quarter round can be undone,
and the block function is ten double rounds. -/

namespace Sys2Proof.Machine

open Sys2Proof

/-! The quarter round can be undone (R120) -/

/-- Bit `i` of a word rotated by `k` is the bit that stood `k` places lower, around the word's end. -/
theorem getLsbD_rotl (x : Word) {k i : Nat} (hk : k < 32) (hi : i < 32) :
    (rotl x k).getLsbD i = if i < k then x.getLsbD (32 - k + i) else x.getLsbD (i - k) := by
  have hrotl : rotl x k = x.rotateLeft k := (BitVec.rotateLeft_eq_rotateLeftAux_of_lt hk).symm
  rw [hrotl, BitVec.getLsbD_rotateLeft_of_le hk]
  by_cases h : i < k <;> simp [h, hi]

/-- A rotation by `k` and one by `32 - k` go once around the word. -/
theorem rotl_rotl (x : Word) {k : Nat} (h0 : 0 < k) (hk : k < 32) : rotl (rotl x k) (32 - k) = x := by
  apply BitVec.eq_of_getLsbD_eq
  intro i hi
  rw [getLsbD_rotl _ (by omega) hi]
  split
  case isTrue h =>
    rw [getLsbD_rotl _ hk (by omega), if_neg (by omega)]
    congr 1; omega
  case isFalse h =>
    rw [getLsbD_rotl _ hk (by omega), if_pos (by omega)]
    congr 1; omega

/-- One of the four lines of R120 on the words in the order of its roles: `a += b; d ^= a; d <<<= k`, with the words then in the
order of the next line's roles. -/
def quarterLine (k : Nat) : Word × Word × Word × Word → Word × Word × Word × Word
  | (a, b, c, d) => (c, rotl (d ^^^ (a + b)) k, a + b, b)

/-- The line undone. -/
def undoQuarterLine (k : Nat) : Word × Word × Word × Word → Word × Word × Word × Word
  | (c, d, a, b) => (a - b, b, c, rotl d (32 - k) ^^^ a)

/-- The quarter round is its four lines, after which the words are in their first order again. -/
theorem quarterRoundOf_eq_lines :
    quarterRoundOf = quarterLine 7 ∘ quarterLine 8 ∘ quarterLine 12 ∘ quarterLine 16 := rfl

theorem quarterLine_bijective {k : Nat} (h0 : 0 < k) (hk : k < 32) : Function.Bijective (quarterLine k) := by
  rw [Function.bijective_iff_has_inverse]
  refine ⟨undoQuarterLine k, fun ⟨a, b, c, d⟩ => ?_, fun ⟨c, d, a, b⟩ => ?_⟩
  · simp [quarterLine, undoQuarterLine, rotl_rotl _ h0 hk]
  · have hd := rotl_rotl d (k := 32 - k) (by omega) (by omega)
    rw [Nat.sub_sub_self hk.le] at hd
    simp [quarterLine, undoQuarterLine, hd]

/-- Settles O21: each of the four lines can be undone. -/
theorem quarterRoundIsABijection : Obligations.QuarterRoundIsABijection := by
  have hbijective : Function.Bijective quarterRoundOf := by
    rw [quarterRoundOf_eq_lines]
    exact (quarterLine_bijective (by decide) (by decide)).comp
      ((quarterLine_bijective (by decide) (by decide)).comp
        ((quarterLine_bijective (by decide) (by decide)).comp (quarterLine_bijective (by decide) (by decide))))
  exact ⟨hbijective, quarterRound_zero⟩

/-! The block function in double rounds (R141) -/

/-- A column round followed by a diagonal round. -/
def doubleRound (x : Block) : Block := diagonalRound (columnRound x)

theorem firstRounds_two_mul (n : Nat) (x : Block) : firstRounds (2 * n) x = doubleRound^[n] x := by
  induction n with
  | zero => rfl
  | succ n ih =>
    have hodd : (2 * n + 1) % 2 = 1 := by omega
    have heven : ¬(2 * n + 1 + 1) % 2 = 1 := by omega
    rw [Function.iterate_succ_apply', ← ih, Nat.mul_succ]
    simp only [firstRounds, roundNumber, if_pos hodd, if_neg heven, doubleRound]

/-- Settles O26: the rounds in pairs, each of which keeps the zero state. -/
theorem blockFunctionIsTenDoubleRounds : Obligations.BlockFunctionIsTenDoubleRounds := by
  have hzero : doubleRound (Vector.replicate 16 0) = Vector.replicate 16 0 := by
    rw [doubleRound, columnRound_zero, diagonalRound_zero]
  exact ⟨firstRounds_two_mul 10, (firstRounds_two_mul 10 _).trans (Function.iterate_fixed hzero 10)⟩

end Sys2Proof.Machine
end

section
/-! PROOFS. Sessions (spec/43_keystream_generator.md section 3): reading the keystream block again (R168), and two cores with the
same `INIT` and the same commands after it (R170). -/

namespace Sys2Proof.Machine

open Sys2Proof

/-! Commands that leave the session (R168) -/

/-- A sequence begins with its first command, whose response the host accepts. -/
theorem runCommands_cons_inv {i : Instr} {rest : List Instr} {s t : State} (h : runCommands (i :: rest) s = .next t) :
    ∃ u, exec i s = .next u ∧ runCommands rest (acceptResponse u) = .next t := by
  obtain ⟨u, hu, _⟩ := exec_next i s
  exact ⟨u, hu, (runCommands_cons rest hu).symm.trans h⟩

/-- What `KS_CURRENT` reads of two states is the same. -/
def SameBlock (s t : State) : Prop := t.session = s.session ∧ t.sigma = s.sigma

/-- Commands that neither start nor advance a session leave it, and a core that they leave unfaulted was so before. -/
theorem runCommands_sameBlock {cmds : List Instr} {s t : State}
    (hcmds : ∀ i ∈ cmds, advances i = false ∧ ∀ key nonce, i ≠ .init key nonce) (h : runCommands cmds s = .next t)
    (hr : s.response = []) : SameBlock s t ∧ t.response = [] ∧ (t.flt = false → s.flt = false) := by
  induction cmds generalizing s with
  | nil =>
    obtain rfl := Host.Outcome.next.inj h
    exact ⟨⟨rfl, rfl⟩, hr, id⟩
  | cons i cmds ih =>
    obtain ⟨⟨hadv, hinit⟩, hrest⟩ := List.forall_mem_cons.1 hcmds
    obtain ⟨u, hu, hrun⟩ := runCommands_cons_inv h
    obtain ⟨⟨hsession, hsigma⟩, ht, hback⟩ := ih hrest hrun (acceptResponse_response u)
    obtain ⟨husigma, _, _⟩ := exec_keeps_sigma_input_emitted hu
    have husession := exec_keeps_session hu hinit hadv
    refine ⟨⟨hsession.trans husession, hsigma.trans husigma⟩, ht, fun hf => ?_⟩
    exact ((exec_answered hu).flt_and_fcode_of_flt_eq_false (hback hf)).1

/-- The response to `KS_CURRENT` on an unfaulted core is a function of the session and the constants (R166, R223). -/
theorem exec_ksCurrent_sameBlock {s t : State} (h : SameBlock s t) (hs : s.flt = false) (ht : t.flt = false)
    (hr : s.response = t.response) :
    ∃ u v, exec .ksCurrent s = .next u ∧ exec .ksCurrent t = .next v ∧ v.response = u.response := by
  obtain ⟨hsession, hsigma⟩ := h
  refine ⟨_, _, congrArg Host.Outcome.next (unlessFaulted_ok hs), congrArg Host.Outcome.next (unlessFaulted_ok ht), ?_⟩
  simp only [requireSession, hsession, hsigma]
  cases hx : s.session with
  | none => simp [hr]
  | some x => simp [hr, causeField]

/-- Settles O50: the first read is itself a command that leaves the session. -/
theorem keystreamReadIsIdempotent : Obligations.KeystreamReadIsIdempotent := by
  intro s t between hr hbetween hrun hf
  have hcmds : ∀ i ∈ .ksCurrent :: between, advances i = false ∧ ∀ key nonce, i ≠ .init key nonce :=
    List.forall_mem_cons.2 ⟨⟨rfl, by simp⟩, hbetween⟩
  obtain ⟨hsame, ht, hback⟩ := runCommands_sameBlock hcmds hrun hr
  exact exec_ksCurrent_sameBlock hsame (hback hf) hf (hr.trans ht.symm)

/-! Commands that advance the session (R169, R170) -/

/-- After `INIT` and any commands that advance the session, it is that of the key and the nonce at the number of those commands. -/
theorem runCommands_init_advancing {s : State} (key : Vector Word 8) (nonce : Vector Word 3) {cmds : List Instr}
    (hf : s.flt = false) (hcmds : ∀ i ∈ cmds, advances i = true) :
    ∃ t, runCommands (.init key.toList nonce.toList :: cmds) s = .next t ∧ t.flt = false ∧ t.sigma = s.sigma ∧
      t.response = [] ∧ t.ctr = BitVec.ofNat 32 cmds.length ∧
      t.session = some ⟨key, nonce, BitVec.ofNat 32 cmds.length⟩ := by
  obtain ⟨accepted, hrun⟩ := runCommands_advancing cmds (acceptResponse (respond .ok [] (startSession key nonce s))) hcmds
    hf rfl (acceptResponse_response _)
  have hctr : (0 : Word) + BitVec.ofNat 32 cmds.length = BitVec.ofNat 32 cmds.length := BitVec.zero_add _
  exact ⟨_, (runCommands_cons cmds (exec_init_unfaulted key nonce hf)).trans hrun, hf, rfl, acceptResponse_response _,
    hctr, congrArg (fun ctr => some (Session.mk key nonce ctr)) hctr⟩

/-- An unfaulted core with a session and no response word left answers `KS_CURRENT` with the session's block alone (R166). -/
theorem exec_ksCurrent_response {s : State} {x : Session} (hf : s.flt = false) (hx : s.session = some x)
    (hr : s.response = []) :
    ∃ u, exec .ksCurrent s = .next u ∧ u.response = 0x00001000 :: (ksWords s.sigma x).toList := by
  refine ⟨_, exec_ksCurrent_of_session hf hx, ?_⟩
  rw [respond_ok_block, hr]
  rfl

/-- Settles O52: both cores hold the same session and the same constants, which is what the block is computed from. -/
theorem equalSessionsRunInLockstep : Obligations.EqualSessionsRunInLockstep := by
  intro s t key nonce cmds hs ht hsigma hcmds
  obtain ⟨s', hsrun, hsf, hssigma, hsr, hsctr, hsx⟩ := runCommands_init_advancing key nonce hs hcmds
  obtain ⟨t', htrun, htf, htsigma, htr, htctr, htx⟩ := runCommands_init_advancing key nonce ht hcmds
  obtain ⟨u, hu, hublock⟩ := exec_ksCurrent_response hsf hsx hsr
  obtain ⟨v, hv, hvblock⟩ := exec_ksCurrent_response htf htx htr
  rw [hssigma] at hublock
  rw [htsigma, ← hsigma] at hvblock
  exact ⟨s', t', u, v, hsrun, htrun, hsctr.trans htctr.symm, hu, hv, hublock.trans hvblock.symm, hublock⟩

end Sys2Proof.Machine
end

section
/-! PROOFS. The stream `transform` (spec/44_stream_xor_cipher.md section 3): what it gives chunk by chunk, that it undoes itself up
to padding, and its host protocol as a program's line. -/

namespace Sys2Proof.Machine

open Sys2Proof

/-! Chunks of a byte string (R193) -/

/-- Chunk `t` is the 64 bytes from byte `64t`, or those that are left. -/
theorem chunksOf_getElem? {m t : Nat} {bytes c : List Byte} (h : (chunksOf m bytes)[t]? = some c) :
    c = (bytes.drop (64 * t)).take 64 := by
  induction m generalizing t bytes with
  | zero => cases h
  | succ m ih =>
    rw [chunksOf] at h
    cases t with
    | zero => simpa [eq_comm] using h
    | succ t =>
      rw [List.getElem?_cons_succ] at h
      rw [ih h, List.drop_drop, Nat.mul_succ, Nat.add_comm]

theorem length_flatten_of_forall_length {cs : List (List Byte)} (h : ∀ c ∈ cs, c.length = 64) :
    cs.flatten.length = cs.length * 64 := by
  rw [List.length_flatten, List.map_congr_left h, List.map_const', List.sum_replicate, smul_eq_mul]

theorem chunksOf_flatten {cs : List (List Byte)} (h : ∀ c ∈ cs, c.length = 64) : chunksOf cs.length cs.flatten = cs := by
  induction cs with
  | nil => rfl
  | cons c cs ih =>
    obtain ⟨hc, hcs⟩ := List.forall_mem_cons.1 h
    rw [List.length_cons, chunksOf, List.flatten_cons, List.take_left' hc, List.drop_left' hc, ih hcs]

/-- A string of whole chunks is cut into them again. -/
theorem chunks_flatten {cs : List (List Byte)} (h : ∀ c ∈ cs, c.length = 64) : chunks cs.flatten = cs := by
  have hcount : (cs.flatten.length + (Config.chunkBytes - 1)) / Config.chunkBytes = cs.length := by
    rw [length_flatten_of_forall_length h]; simp only [Config.chunkBytes]; omega
  rw [chunks, hcount, chunksOf_flatten h]

theorem length_padBytes64 {c : List Byte} (h : c.length ≤ 64) : (padBytes64 c).length = 64 := by
  rw [padBytes64, List.length_append, List.length_replicate]; omega

theorem padBytes64_of_length_eq {c : List Byte} (h : c.length = 64) : padBytes64 c = c := by
  simp [padBytes64, h]

/-- Padding each chunk pads the whole string, since only the last chunk can be short. -/
theorem flatten_map_padBytes64_chunksOf {m : Nat} {bytes : List Byte} (h : bytes.length ≤ 64 * m) :
    ((chunksOf m bytes).map padBytes64).flatten = bytes ++ List.replicate (64 * m - bytes.length) 0 := by
  induction m generalizing bytes with
  | zero =>
    obtain rfl := List.length_eq_zero_iff.1 (Nat.le_zero.1 h)
    rfl
  | succ m ih =>
    have hdrop : (bytes.drop 64).length = bytes.length - 64 := List.length_drop
    rw [chunksOf, List.map_cons, List.flatten_cons, ih (by rw [hdrop]; omega), hdrop]
    rcases Nat.le_total bytes.length 64 with hshort | hlong
    · rw [List.take_of_length_le hshort, List.drop_of_length_le hshort, padBytes64, List.nil_append, List.append_assoc,
        List.replicate_append_replicate]
      congr 2; omega
    · have htake : (bytes.take 64).length = 64 := by rw [List.length_take, Nat.min_eq_left hlong]
      rw [padBytes64_of_length_eq htake, ← List.append_assoc, List.take_append_drop]
      congr 2; omega

theorem flatten_map_padBytes64_chunks (bytes : List Byte) : ((chunks bytes).map padBytes64).flatten = padStream bytes := by
  rw [chunks, flatten_map_padBytes64_chunksOf (by simp only [Config.chunkBytes]; omega), padStream]
  congr 2
  simp only [Config.chunkBytes]
  omega

/-! Chunks xored with blocks (R191, R195) -/

/-- Chunk by chunk, the padded chunk xored with the block of its number. -/
def xorWithBlocks (blocks : Nat → List Byte) (cs : List (List Byte)) : List (List Byte) :=
  cs.mapIdx fun n c => List.zipWith (· ^^^ ·) (padBytes64 c) (blocks n)

theorem xorWithBlocks_cons (blocks : Nat → List Byte) (c : List Byte) (cs : List (List Byte)) :
    xorWithBlocks blocks (c :: cs) =
      List.zipWith (· ^^^ ·) (padBytes64 c) (blocks 0) :: xorWithBlocks (fun n => blocks (n + 1)) cs :=
  List.mapIdx_cons

theorem zipWith_xor_xor {xs ks : List Byte} (h : xs.length = ks.length) :
    List.zipWith (· ^^^ ·) (List.zipWith (· ^^^ ·) xs ks) ks = xs := by
  apply List.ext_getElem
  · simp [h]
  · simp

theorem length_of_mem_xorWithBlocks {blocks : Nat → List Byte} {cs : List (List Byte)} (hblocks : ∀ n, (blocks n).length = 64)
    (hcs : ∀ c ∈ cs, c.length ≤ 64) : ∀ c ∈ xorWithBlocks blocks cs, c.length = 64 := by
  intro c hc
  obtain ⟨n, hn, rfl⟩ := List.mem_mapIdx.1 hc
  rw [List.length_zipWith, length_padBytes64 (hcs _ (List.getElem_mem hn)), hblocks, Nat.min_self]

/-- The exclusive or with the same blocks twice leaves the padded chunks (R196). -/
theorem xorWithBlocks_xorWithBlocks {blocks : Nat → List Byte} {cs : List (List Byte)} (hblocks : ∀ n, (blocks n).length = 64)
    (hcs : ∀ c ∈ cs, c.length ≤ 64) : xorWithBlocks blocks (xorWithBlocks blocks cs) = cs.map padBytes64 := by
  induction cs generalizing blocks with
  | nil => rfl
  | cons c cs ih =>
    obtain ⟨hc, hrest⟩ := List.forall_mem_cons.1 hcs
    have hpad := length_padBytes64 hc
    rw [xorWithBlocks_cons, xorWithBlocks_cons, ih (fun n => hblocks (n + 1)) hrest, List.map_cons,
      padBytes64_of_length_eq (by rw [List.length_zipWith, hpad, hblocks, Nat.min_self]),
      zipWith_xor_xor (hpad.trans (hblocks 0).symm)]

/-! What `transform` gives (R193, R195) -/

/-- The keystream of a session from its counter on, block by block. -/
def blocksFrom (sigma : Vector Word 4) (x : Session) (n : Nat) : List Byte :=
  ksBytes sigma { x with ctr := x.ctr + BitVec.ofNat 32 n }

theorem length_blocksFrom (sigma : Vector Word 4) (x : Session) (n : Nat) : (blocksFrom sigma x n).length = 64 :=
  serialize_length _

theorem add_one_add_ofNat (c : Word) (n : Nat) : c + 1 + BitVec.ofNat 32 n = c + BitVec.ofNat 32 (n + 1) := by
  rw [Nat.add_comm n, BitVec.ofNat_add]
  exact BitVec.add_assoc ..

theorem blocksFrom_head (sigma : Vector Word 4) (x : Session) : blocksFrom sigma x 0 = serialize (ksWords sigma x) := by
  simp [blocksFrom, ksBytes]

theorem blocksFrom_succ (sigma : Vector Word 4) (x : Session) :
    blocksFrom sigma { x with ctr := x.ctr + 1 } = fun n => blocksFrom sigma x (n + 1) := by
  funext n
  simp only [blocksFrom, add_one_add_ofNat]

/-- The bytes of a chunk's response payload (R191). -/
theorem unpackWords_chunk_response {c : List Byte} (hc : 1 ≤ c.length ∧ c.length ≤ 64) (ks : Block) :
    unpackWords (xorBlocks (padChunk c.length (packBytes c)) ks).toList =
      List.zipWith (· ^^^ ·) (padBytes64 c) (serialize ks) := by
  obtain ⟨_, hbytes, _⟩ := chunkIsXoredByteByByte c.length (packBytes c) ks hc.1 hc.2 (packBytes_length c)
  rwa [← List.prefix_iff_eq_take.1 (prefix_unpackWords_packBytes c)] at hbytes

/-- The chunks sent to an unfaulted core with a session come back xored with the blocks from the session's counter on, and the
session stands as many blocks further. -/
theorem sendChunks_xors {cs : List (List Byte)} {s : State} (hcs : ∀ c ∈ cs, 1 ≤ c.length ∧ c.length ≤ 64)
    (hf : s.flt = false) (hcfg : s.cfg = true) :
    ∃ t, sendChunks cs s = some ((xorWithBlocks (blocksFrom s.sigma ⟨s.key, s.nonce, s.ctr⟩) cs).flatten, t) ∧
      t.session = some ⟨s.key, s.nonce, s.ctr + BitVec.ofNat 32 cs.length⟩ := by
  induction cs generalizing s with
  | nil => exact ⟨s, rfl, by simp [session_some hcfg]⟩
  | cons c cs ih =>
    obtain ⟨hc, hrest⟩ := List.forall_mem_cons.1 hcs
    obtain ⟨t, hsend, htf, htc, hsigma, hkey, hnonce, hctr⟩ := send_chunkCommand hc hf hcfg
    obtain ⟨u, hlater, hsession⟩ := ih hrest htf htc
    rw [hsigma, hkey, hnonce, hctr, blocksFrom_succ s.sigma ⟨s.key, s.nonce, s.ctr⟩] at hlater
    rw [hkey, hnonce, hctr, add_one_add_ofNat] at hsession
    refine ⟨u, ?_, hsession⟩
    rw [sendChunks, hsend, Option.bind_some, hlater, xorWithBlocks_cons, List.flatten_cons, blocksFrom_head,
      ← unpackWords_chunk_response hc]
    rfl

/-- On an unfaulted core `transform` gives the input's chunks xored with the key's and the nonce's blocks from counter 0 on. -/
theorem transform_xors {s : State} (key : Vector Word 8) (nonce : Vector Word 3) (input : List Byte) (hf : s.flt = false) :
    ∃ t, transform key nonce input s =
        some ((xorWithBlocks (blocksFrom s.sigma ⟨key, nonce, 0⟩) (chunks input)).flatten, t) ∧
      t.session = some ⟨key, nonce, BitVec.ofNat 32 (chunks input).length⟩ := by
  have hinit := send_of_exec (i := .init key.toList nonce.toList) (by simp [Instr.wellFormed])
    (exec_init_unfaulted key nonce (s := acceptResponse s) hf)
  obtain ⟨t, hchunks, hsession⟩ := sendChunks_xors (fun c => length_bounds_of_mem_chunks (bytes := input))
    (s := acceptResponse (respond .ok [] (startSession key nonce (acceptResponse s)))) hf rfl
  refine ⟨t, ?_, hsession.trans ?_⟩
  · rw [transform, hinit]
    exact hchunks
  · exact congrArg (fun ctr => some (Session.mk key nonce ctr)) (BitVec.zero_add _)

theorem blocksFrom_zero (sigma : Vector Word 4) (key : Vector Word 8) (nonce : Vector Word 3) (n : Nat) :
    blocksFrom sigma ⟨key, nonce, 0⟩ n = ksBytes sigma ⟨key, nonce, BitVec.ofNat 32 n⟩ :=
  congrArg (fun ctr => ksBytes sigma ⟨key, nonce, ctr⟩) (BitVec.zero_add _)

/-- Settles O54: the chunks by their count and place, and the output by the blocks from counter 0 on. -/
theorem transformXorsEachChunkWithItsBlock : Obligations.TransformXorsEachChunkWithItsBlock := by
  intro s key nonce input hf
  obtain ⟨t, htransform, hsession⟩ := transform_xors key nonce input hf
  refine ⟨chunks_length input, fun _ _ => chunksOf_getElem?, _, t, htransform, ?_, ?_, ?_⟩
  · simp only [xorWithBlocks, blocksFrom_zero]
  · rw [hsession, chunks_length]
  · rintro rfl
    rfl

/-- Settles O55: the output's chunks are the xored ones, so the second `transform` xors each with the same block again. -/
theorem transformTwiceIsThePaddedInput : Obligations.TransformTwiceIsThePaddedInput := by
  intro s s' key nonce input hf hf' hsigma
  have hblocks := length_blocksFrom s.sigma ⟨key, nonce, 0⟩
  have hshort : ∀ c ∈ chunks input, c.length ≤ 64 := fun c hc => (length_bounds_of_mem_chunks hc).2
  obtain ⟨t, hfirst, _⟩ := transform_xors key nonce input hf
  obtain ⟨t', hsecond, _⟩ := transform_xors key nonce
    (xorWithBlocks (blocksFrom s.sigma ⟨key, nonce, 0⟩) (chunks input)).flatten hf'
  rw [← hsigma, chunks_flatten (length_of_mem_xorWithBlocks hblocks hshort), xorWithBlocks_xorWithBlocks hblocks hshort,
    flatten_map_padBytes64_chunks] at hsecond
  exact ⟨_, t, t', hfirst, hsecond⟩

/-! The host protocol as a program's line (R70) -/

/-- With the response before accepted, the host's exchange of a command is the command's meaning. -/
theorem send_of_accepted {i : Instr} {s : State} (hwf : i.wellFormed = true) (hr : s.response = []) :
    ∃ t, exec i s = .next t ∧ send i s = some (t.response, acceptResponse t) := by
  have haccepted : acceptResponse s = s := by rw [acceptResponse_eq, hr, List.append_nil, ← hr]
  obtain ⟨t, hexec, _⟩ := exec_next i s
  exact ⟨t, hexec, send_of_exec hwf (by rwa [haccepted])⟩

/-- Chunks sent one by one run as their commands in sequence, whatever the responses are (log entry 12). -/
theorem sendChunks_runs {cs : List (List Byte)} {s : State} (hcs : ∀ c ∈ cs, 1 ≤ c.length ∧ c.length ≤ 64)
    (hr : s.response = []) :
    ∃ output t, sendChunks cs s = some (output, t) ∧ runCommands (cs.map chunkCommand) s = .next t := by
  induction cs generalizing s with
  | nil => exact ⟨[], s, rfl, rfl⟩
  | cons c cs ih =>
    obtain ⟨hc, hrest⟩ := List.forall_mem_cons.1 hcs
    obtain ⟨t, hexec, hsend⟩ := send_of_accepted (chunkCommand_wellFormed hc) hr
    obtain ⟨later, u, hlater, hrun⟩ := ih hrest (acceptResponse_response t)
    refine ⟨_, u, by rw [sendChunks, hsend, Option.bind_some, hlater]; rfl, ?_⟩
    rw [List.map_cons, runCommands_cons _ hexec, hrun]

/-- The commands of a `TRANSFORM` line (R70). -/
def transformCommands (key : Vector Word 8) (nonce : Vector Word 3) (input : List Byte) : List Instr :=
  .init key.toList nonce.toList :: (chunks input).map chunkCommand

theorem transform_events (key : Vector Word 8) (nonce : Vector Word 3) (input : List Byte) :
    (Line.transform key nonce input).events = (transformCommands key nonce input).flatMap exchange := by
  rw [Line.events, transformCommands, List.flatMap_cons, List.flatMap_map]

theorem transformCommands_wellFormed {key : Vector Word 8} {nonce : Vector Word 3} {input : List Byte} :
    ∀ i ∈ transformCommands key nonce input, i.wellFormed = true := by
  rw [transformCommands, List.forall_mem_cons, List.forall_mem_map]
  exact ⟨by simp [Instr.wellFormed], fun c hc => chunkCommand_wellFormed (length_bounds_of_mem_chunks hc)⟩

/-- On a core with no response word left `transform` runs its commands in sequence. -/
theorem transform_runs {s : State} (key : Vector Word 8) (nonce : Vector Word 3) (input : List Byte) (hr : s.response = []) :
    ∃ output t, transform key nonce input s = some (output, t) ∧
      runCommands (transformCommands key nonce input) s = .next t := by
  obtain ⟨u, hexec, hsend⟩ := send_of_accepted (i := .init key.toList nonce.toList) (by simp [Instr.wellFormed]) hr
  obtain ⟨output, t, hchunks, hrun⟩ := sendChunks_runs (fun c => length_bounds_of_mem_chunks (bytes := input))
    (acceptResponse_response u)
  refine ⟨output, t, by rw [transform, hsend]; exact hchunks, ?_⟩
  rw [transformCommands, runCommands_cons _ hexec, hrun]

/-- Settles O56: the line's acts are the exchanges of its commands, which take two steps each (O7). -/
theorem transformLineRunsAsTheHostProtocol : Obligations.TransformLineRunsAsTheHostProtocol := by
  intro s key nonce input
  refine ⟨?_, fun hin hr => ?_⟩
  · simp [Line.events, assemble, List.flatMap_map]
  · obtain ⟨output, t, htransform, hrun⟩ := transform_runs key nonce input hr
    refine ⟨output, t, htransform, ?_⟩
    have hsteps := stepsRunTheCommandSequenceInOrder (transformCommands key nonce input)
      { s with input := (Line.transform key nonce input).events } [] transformCommands_wellFormed hr
      (by rw [transform_events, List.append_nil])
    have hlength : (transformCommands key nonce input).length = 1 + (chunks input).length := by
      rw [transformCommands, List.length_cons, List.length_map, Nat.add_comm]
    have hidle : { s with input := [] } = s := by rw [← hin]
    rw [← hlength]
    exact hsteps.trans ((congrArg (runCommands _) hidle).trans hrun)

end Sys2Proof.Machine
end
